-- ==== Sys2Proof/Word.lean ====
section
/-!
DEFINITION. The word types of the A64 machine (`00_scope.md` R6, R7): bit-vectors of the widths the
spec states, bits numbered from 0 at the least significant end.
-/

namespace Sys2Proof

/-- A byte, 8 bits (R7). -/
abbrev Byte := BitVec 8

/-- An instruction word, `ILEN = 32` bits (R6, R64). -/
abbrev InstrWord := BitVec 32

/-- A 64-bit general-purpose register value, an address or the pc (`XLEN = 64`, R6, R41). -/
abbrev Word := BitVec 64

/-- A 128-bit SIMD and FP register value (`VLEN = 128`, R6, R21). -/
abbrev VWord := BitVec 128

end Sys2Proof
end

