-- ==== Sys2Proof/Config.lean ====
section
/-!
DEFINITION. What an implementation or a platform fixes (`00_scope.md` R6, `92_eei_decisions.md`,
"Open parameters") and the free values: what the spec leaves UNKNOWN or undetermined, as constants
without a body.
-/

namespace Sys2Proof

/-- The four Exception levels (`10_state.md` R26). -/
inductive EL where
  | el0 | el1 | el2 | el3
deriving DecidableEq, Repr

/-- A permission for each Exception level. -/
structure ElSet where
  el0 : Bool
  el1 : Bool
  el2 : Bool
  el3 : Bool
deriving DecidableEq, Repr

/-- What kind of memory a range of addresses holds (`20_memory.md` R51, R56, R62). -/
inductive RegionKind where
  /-- Ordinary memory that no other observer writes during the run. -/
  | normal
  /-- Ordinary memory that another observer may write: a read there returns a free value (R56(c)). -/
  | shared
  /-- A location with read side effects: an access is refused (R51). -/
  | device
deriving DecidableEq, Repr

/-- One range of virtual addresses, `base ≤ a < base + size`, with what each Exception level may do
there. The list of regions stands for `VA_RANGE`, `MEM_MAP`, translation and permissions together
(`20_memory.md` R50, R52). DESIGN CHOICE: a list of ranges stands for the spec's predicates (entry 3). -/
structure Region where
  base : Nat
  size : Nat
  kind : RegionKind
  read : ElSet
  exec : ElSet
deriving DecidableEq, Repr

/-- The open parameters of `92_eei_decisions.md` that are fixed for a run. EL0 and EL1 are always
implemented (D3), so `IMPLEMENTED_ELS` is the two remaining flags. -/
structure Platform where
  /-- `HAVE_ADVSIMD` (R6, R98). -/
  advSimd : Bool
  /-- EL2 is in `IMPLEMENTED_ELS`. -/
  hasEl2 : Bool
  /-- EL3 is in `IMPLEMENTED_ELS`. -/
  hasEl3 : Bool
  /-- An implementation without EL3 and without EL2 is Secure (`10_state.md` R27). DEDUCED: with EL2 it
  has no effect, EL2 existing only in Non-secure state (entry 17). -/
  secureOnly : Bool
  /-- `RESET_PC` (R6, R113). -/
  resetPc : Word
  /-- `Readable`, `Executable` and the memory kinds: the first region that holds an address decides. -/
  regions : List Region
deriving DecidableEq, Repr

/-- The kinds of data fault the spec lists for `DataAbort_Other`, with the two level bits `LL` where
the kind has them (`60_exceptions.md` R97). -/
inductive DataFaultStatus where
  | translation (level : BitVec 2)
  | accessFlag (level : BitVec 2)
  | permission (level : BitVec 2)
  | syncExternal
deriving DecidableEq, Repr, Inhabited

/-- Free value: the bits of destination lane `s` after a Data Abort, of which the low `esize` bits are
used (`60_exceptions.md` R103; entry 7). The number is the model's free-value counter. -/
opaque Config.unknownLane : Nat → Fin 4 → BitVec 64

/-- Free value: `FAR_ELx` after an SP alignment fault (`60_exceptions.md` R97; entry 8). -/
opaque Config.unknownFar : Nat → Word

/-- Free value: which kind of fault a `DataAbort_Other` reports (`60_exceptions.md` R97; entry 9). -/
opaque Config.dataFaultStatus : Nat → DataFaultStatus

/-- Free value: the `IFSC` field an `InstructionAbort` reports (`60_exceptions.md` R97; entry 9). -/
opaque Config.instrFaultStatus : Nat → BitVec 6

/-- Free value: the byte a read of a location that another observer may write returns
(`20_memory.md` R56(c); entry 10). -/
opaque Config.observedByte : Nat → Word → Byte

end Sys2Proof
end

