-- ==== Sys2Proof/Syntax.lean ====
section
/-!
DEFINITION. The twelve forms of `LD4 (vector, single structure)`, one constructor for each row of
`spec/opcode_table.json` (`30_encoding.md` R69, R72), and the names a word that is none of them is
rejected under (R70, R71).
-/

namespace Sys2Proof

/-- The element sizes 8, 16, 32 and 64 bits, by the arrangement letter (`30_encoding.md` R72). -/
inductive ElemSize where
  | b | h | s | d
deriving DecidableEq, Repr

/-- The base operand `Xn|SP`: register number 31 is the stack pointer, never the zero register
(`10_state.md` R15, `40_ld4_single_structure.md` R79). -/
inductive XSp where
  | x (n : Fin 31)
  | sp
deriving DecidableEq, Repr

/-- The post-index operand: absent, the fixed immediate `4 * ebytes`, or `Xm` "excluding XZR"
(`30_encoding.md` R68). -/
inductive PostIndex where
  | none
  | imm
  | reg (m : Fin 31)
deriving DecidableEq, Repr

/-- The instructions: `t` the first vector register of the list, `n` the base, `index` the lane,
`m` the offset register (`40_ld4_single_structure.md` R79). -/
inductive Instr where
  /-- 8-bit, no offset (R84). -/
  | ld4B (t : Fin 32) (n : XSp) (index : Nat)
  /-- 16-bit, no offset (R85). -/
  | ld4H (t : Fin 32) (n : XSp) (index : Nat)
  /-- 32-bit, no offset (R86). -/
  | ld4S (t : Fin 32) (n : XSp) (index : Nat)
  /-- 64-bit, no offset (R87). -/
  | ld4D (t : Fin 32) (n : XSp) (index : Nat)
  /-- 8-bit, post-index `#4` (R88). -/
  | ld4BImm (t : Fin 32) (n : XSp) (index : Nat)
  /-- 8-bit, post-index `Xm` (R89). -/
  | ld4BReg (t : Fin 32) (n : XSp) (index : Nat) (m : Fin 31)
  /-- 16-bit, post-index `#8` (R90). -/
  | ld4HImm (t : Fin 32) (n : XSp) (index : Nat)
  /-- 16-bit, post-index `Xm` (R91). -/
  | ld4HReg (t : Fin 32) (n : XSp) (index : Nat) (m : Fin 31)
  /-- 32-bit, post-index `#16` (R92). -/
  | ld4SImm (t : Fin 32) (n : XSp) (index : Nat)
  /-- 32-bit, post-index `Xm` (R93). -/
  | ld4SReg (t : Fin 32) (n : XSp) (index : Nat) (m : Fin 31)
  /-- 64-bit, post-index `#32` (R94). -/
  | ld4DImm (t : Fin 32) (n : XSp) (index : Nat)
  /-- 64-bit, post-index `Xm` (R95). -/
  | ld4DReg (t : Fin 32) (n : XSp) (index : Nat) (m : Fin 31)
deriving DecidableEq, Repr

/-- The first destination register `t` of the list. -/
def Instr.first : Instr → Fin 32
  | .ld4B t _ _ | .ld4H t _ _ | .ld4S t _ _ | .ld4D t _ _ => t
  | .ld4BImm t _ _ | .ld4HImm t _ _ | .ld4SImm t _ _ | .ld4DImm t _ _ => t
  | .ld4BReg t _ _ _ | .ld4HReg t _ _ _ | .ld4SReg t _ _ _ | .ld4DReg t _ _ _ => t

/-- The base operand `Xn|SP`. -/
def Instr.base : Instr → XSp
  | .ld4B _ n _ | .ld4H _ n _ | .ld4S _ n _ | .ld4D _ n _ => n
  | .ld4BImm _ n _ | .ld4HImm _ n _ | .ld4SImm _ n _ | .ld4DImm _ n _ => n
  | .ld4BReg _ n _ _ | .ld4HReg _ n _ _ | .ld4SReg _ n _ _ | .ld4DReg _ n _ _ => n

/-- The lane index. -/
def Instr.lane : Instr → Nat
  | .ld4B _ _ i | .ld4H _ _ i | .ld4S _ _ i | .ld4D _ _ i => i
  | .ld4BImm _ _ i | .ld4HImm _ _ i | .ld4SImm _ _ i | .ld4DImm _ _ i => i
  | .ld4BReg _ _ i _ | .ld4HReg _ _ i _ | .ld4SReg _ _ i _ | .ld4DReg _ _ i _ => i

/-- The element size. -/
def Instr.elemSize : Instr → ElemSize
  | .ld4B _ _ _ | .ld4BImm _ _ _ | .ld4BReg _ _ _ _ => .b
  | .ld4H _ _ _ | .ld4HImm _ _ _ | .ld4HReg _ _ _ _ => .h
  | .ld4S _ _ _ | .ld4SImm _ _ _ | .ld4SReg _ _ _ _ => .s
  | .ld4D _ _ _ | .ld4DImm _ _ _ | .ld4DReg _ _ _ _ => .d

/-- The post-index operand. -/
def Instr.post : Instr → PostIndex
  | .ld4B _ _ _ | .ld4H _ _ _ | .ld4S _ _ _ | .ld4D _ _ _ => .none
  | .ld4BImm _ _ _ | .ld4HImm _ _ _ | .ld4SImm _ _ _ | .ld4DImm _ _ _ => .imm
  | .ld4BReg _ _ _ m | .ld4HReg _ _ _ m | .ld4SReg _ _ _ m | .ld4DReg _ _ _ m => .reg m

/-- The instruction with the given operands (the inverse of the five projections). -/
def Instr.ofOperands (sz : ElemSize) (post : PostIndex) (t : Fin 32) (n : XSp) (index : Nat) : Instr :=
  match sz, post with
  | .b, .none => .ld4B t n index
  | .h, .none => .ld4H t n index
  | .s, .none => .ld4S t n index
  | .d, .none => .ld4D t n index
  | .b, .imm => .ld4BImm t n index
  | .h, .imm => .ld4HImm t n index
  | .s, .imm => .ld4SImm t n index
  | .d, .imm => .ld4DImm t n index
  | .b, .reg m => .ld4BReg t n index m
  | .h, .reg m => .ld4HReg t n index m
  | .s, .reg m => .ld4SReg t n index m
  | .d, .reg m => .ld4DReg t n index m

/-- The reserved words of the class, by the row of `30_encoding.md` R71: executing one raises the
Undefined Instruction exception (R98). -/
inductive ReservedWord where
  /-- `P = 0` and `Rm ≠ 00000`. -/
  | offsetWithoutPostIndex
  /-- `opcode = 011` and `size<0> = 1`. -/
  | halfwordOddSize
  /-- `opcode = 101` and `size<1> = 1`. -/
  | wordHighSize
  /-- `opcode = 101`, `size = 01` and `S = 1`. -/
  | doublewordWithS
  /-- `opcode = 111` and `S = 1`. -/
  | replicateWithS
deriving DecidableEq, Repr

/-- The words that are not in scope, by what `30_encoding.md` R71 says they are: the model refuses
them (`00_scope.md` R5). -/
inductive OtherWord where
  /-- Bit 31 is 1 or bits 29:24 are not `001101`: another instruction or unallocated. -/
  | outsideClass
  /-- `L = 0`: a store of the class, such as `ST4` (single structure). -/
  | storeForm
  /-- `R = 1`, `opcode<0> = 0`: `LD2` (single structure). -/
  | ld2Form
  /-- `R = 0`, `opcode<0> = 0`: `LD1` (single structure). -/
  | ld1Form
  /-- `R = 0`, `opcode<0> = 1`: `LD3` (single structure). -/
  | ld3Form
  /-- `opcode = 111`, `S = 0`: `LD4R`. -/
  | ld4r
  /-- Fewer than four bytes were given: no A64 word (R64). -/
  | truncated
deriving DecidableEq, Repr

end Sys2Proof
end

