-- ==== Sys2Proof/Machine/State.lean ====
section
/-!
DEFINITION. The state of the machine as plain data (`10_state.md`, `70_reset_and_hazards.md` R113),
the synchronous exceptions (`60_exceptions.md` R97), the reasons a step is refused, and the state
after reset.
-/

namespace Sys2Proof.Machine

/-- The levels that can take an exception: "never taken to EL0" (`60_exceptions.md` R101). -/
inductive TargetEl where
  | el1 | el2 | el3
deriving DecidableEq, Repr

/-- The Process State fields (`10_state.md` R19, R25), with the two further `pstatefield` names of
R36. -/
structure Pstate where
  n : Bool
  z : Bool
  c : Bool
  v : Bool
  d : Bool
  a : Bool
  i : Bool
  f : Bool
  ss : Bool
  il : Bool
  /-- Current register width: false is AArch64. -/
  nRW : Bool
  /-- Stack pointer selection: false selects SP_EL0 (R17). -/
  spSel : Bool
  uao : Bool
  pan : Bool
  el : EL
deriving DecidableEq, Repr

/-- The registers that exist once for each of EL1, EL2 and EL3: SP_ELx (`10_state.md` R17), ELR_ELx
(R28), SPSR_ELx (R29), ESR_ELx and FAR_ELx (R30), VBAR_ELx (`60_exceptions.md` R102), SCTLR_ELx (R34). -/
structure Bank where
  sp : Word
  elr : Word
  spsr : BitVec 32
  esr : BitVec 32
  far : Word
  vbar : Word
  sctlr : BitVec 32
deriving DecidableEq, Repr

/-- The floating-point system registers (`10_state.md` R24). PRESUMED: their widths (entry 21). -/
structure FpRegs where
  fpcr : BitVec 32
  fpsr : BitVec 32
deriving DecidableEq, Repr

/-- The trap, configuration and identification registers (`10_state.md` R31 to R33, R35, R36).
PRESUMED: their widths (entry 21). -/
structure SysRegs where
  cpacrEl1 : BitVec 32
  cptrEl2 : BitVec 32
  cptrEl3 : BitVec 32
  hcrEl2 : BitVec 64
  scrEl3 : BitVec 32
  idAa64Isar0El1 : BitVec 64
deriving DecidableEq, Repr

/-- The debug registers the spec names (`10_state.md` R36) and the two debug conditions a step looks
at (`60_exceptions.md` R111; entry 18). -/
structure DebugRegs where
  dlrEl0 : Word
  dspsrEl0 : BitVec 32
  edscr : BitVec 32
  /-- The PE is in Debug state. -/
  halted : Bool
  /-- A breakpoint or a watchpoint is enabled. -/
  events : Bool
deriving DecidableEq, Repr

/-- Hidden state of the PE (`10_state.md` R38): the exclusive monitor and the pending asynchronous
exceptions. PRESUMED: the monitor's shape (entry 21). -/
structure Hidden where
  monitor : Option Word
  irq : Bool
  fiq : Bool
  serror : Bool
deriving DecidableEq, Repr

/-- Memory: the listed bytes, addresses strictly rising, none equal to what an unlisted byte reads as
(`Machine/Memory.lean` defines both). -/
abbrev Memory := List Host.Cell

/-- Program text held apart from memory (`20_memory.md` R62, `90_conflicts.md` C21; entry 6). -/
abbrev ProgramText := List Host.Cell

/-- Everything the spec gives the machine; `INVENTORY.md` lists each field with its rule. -/
structure State where
  /-- X0 to X30 (R13). -/
  x : Vector Word 31
  /-- SP_EL0 (R17). -/
  spEl0 : Word
  /-- The program counter (R18). -/
  pc : Word
  /-- V0 to V31 (R21). -/
  v : Vector VWord 32
  /-- PSTATE (R25). -/
  pstate : Pstate
  bank1 : Bank
  bank2 : Bank
  bank3 : Bank
  fp : FpRegs
  sys : SysRegs
  dbg : DebugRegs
  hidden : Hidden
  mem : Memory
  text : ProgramText
  platform : Platform
  /-- The model's own counter that the free values read (entry 11). -/
  freeCount : Nat
deriving DecidableEq, Repr

/-- The synchronous exceptions of `60_exceptions.md` R97, with what each reports. -/
inductive SyncException where
  | pcAlignmentFault (pc : Word)
  | instructionAbort (pc : Word)
  | illegalState
  | undefinedInstruction
  | simdAccessTrap (target : TargetEl)
  | spAlignmentFault
  | dataAbortAlignment (addr : Word)
  | dataAbortOther (addr : Word)
deriving DecidableEq, Repr

/-- What stops the machine with a fault: nothing. Every fault of the spec is a synchronous exception
whose entry `60_exceptions.md` R102 describes, and is taken (entry 1). The outcome `Fault` of R9 is
`SpecOutcome.fault`. -/
inductive Fault where
deriving DecidableEq, Repr

/-- Why a step is refused. -/
inductive Refusal where
  /-- Raised by an arm of `exec` that has no meaning yet (there is none). Safe: the model stops. -/
  | notModelled (mnemonic : String)
  /-- Raised by the fetch for a word that is neither a form of LD4 nor a reserved word of its class
  (`00_scope.md` R5, R9). Safe: the model stops. -/
  | notInScope (why : OtherWord) (word : InstrWord)
  /-- Raised by an element read that touches a location with read side effects (`20_memory.md` R51).
  Safe: the model stops. -/
  | deviceMemory (addr : Word)
  /-- Raised by `CheckSIMDEnabled` when EL2 is implemented and `HCR_EL2.E2H = 1`
  (`92_eei_decisions.md` D4). Safe: the model stops. -/
  | hostExtensionsEnabled
  /-- Raised by the fetch from a location that another observer may write (`20_memory.md` R62).
  Safe: the model stops. -/
  | codeWrittenByOthers (pc : Word)
  /-- Raised by a step, or by an exception return, in or to AArch32 state (`00_scope.md` R2).
  Safe: the model stops. -/
  | aarch32State
  /-- Raised by a step with `PSTATE.SS = 1` (`60_exceptions.md` R111). Safe: the model stops. -/
  | softwareStep
  /-- Raised by a step in Debug state (`60_exceptions.md` R111). Safe: the model stops. -/
  | debugState
  /-- Raised by a step while a breakpoint or a watchpoint is enabled (`60_exceptions.md` R111).
  Safe: the model stops. -/
  | debugEvents
  /-- Raised by a step while an asynchronous exception is pending (`60_exceptions.md` R106).
  Safe: the model stops. -/
  | pendingInterrupt
deriving DecidableEq, Repr

/-- How an operation of an instruction ends early: it raises an exception, which is then taken, or the
model refuses. -/
inductive Stop where
  | raise (e : SyncException)
  | refuse (r : Refusal)
deriving DecidableEq, Repr

/-- The outcomes of one step as `00_scope.md` R9 gives them, and of a run (`70_reset_and_hazards.md`
R118). -/
inductive SpecOutcome where
  /-- `Next(state')`: the instruction completed; of a run: `Done(state')`. -/
  | next (s : State)
  /-- `Fault(kind, info)`: a synchronous exception was raised; the state is the one at the fault, before
  the entry (`60_exceptions.md` R103). -/
  | fault (e : SyncException) (atFault : State)
  /-- `Refused(word)`: the model gives no meaning. -/
  | refused (r : Refusal)
deriving DecidableEq, Repr

/-! ### Reset (`70_reset_and_hazards.md` R113) -/

/-- The highest implemented Exception level: "On powerup and on reset, the processor enters the highest
implemented exception level" (R113). -/
def highestEl (p : Platform) : EL :=
  if p.hasEl3 then .el3 else if p.hasEl2 then .el2 else .el1

/-- PSTATE after reset (R113). DESIGN CHOICE: N, Z, C, V, UAO and PAN, which the spec leaves
unspecified, are 0 (entry 2). -/
def resetPstate (p : Platform) : Pstate :=
  { n := false, z := false, c := false, v := false, d := true, a := true, i := true, f := true,
    ss := false, il := false, nRW := false, spSel := true, uao := false, pan := false,
    el := highestEl p }

/-- DESIGN CHOICE: a level's registers after reset, unspecified by R113, are 0 (entry 2). -/
def resetBank : Bank :=
  { sp := 0#64, elr := 0#64, spsr := 0#32, esr := 0#32, far := 0#64, vbar := 0#64, sctlr := 0#32 }

/-- The state after reset on a given platform (R113). DESIGN CHOICE: every register the rule leaves
unspecified is 0 (entry 2). -/
def State.resetOn (p : Platform) : State :=
  { x := Vector.replicate 31 0#64
    spEl0 := 0#64
    pc := p.resetPc
    v := Vector.replicate 32 0#128
    pstate := resetPstate p
    bank1 := resetBank
    bank2 := resetBank
    bank3 := resetBank
    fp := { fpcr := 0#32, fpsr := 0#32 }
    sys :=
      { cpacrEl1 := 0#32, cptrEl2 := 0#32, cptrEl3 := 0#32, hcrEl2 := 0#64, scrEl3 := 0#32,
        idAa64Isar0El1 := 0#64 }
    dbg := { dlrEl0 := 0#64, dspsrEl0 := 0#32, edscr := 0#32, halted := false, events := false }
    hidden := { monitor := none, irq := false, fiq := false, serror := false }
    mem := []
    text := []
    platform := p
    freeCount := 0 }

/-- A permission every level has. -/
def everyLevel : ElSet := { el0 := true, el1 := true, el2 := true, el3 := true }

/-- DESIGN CHOICE: the platform of `State.reset`, where the spec leaves its parameters open (entry 3):
all four levels, ordinary memory at every address for every level, reset address 0. -/
def referencePlatform : Platform :=
  { advSimd := true, hasEl2 := true, hasEl3 := true, secureOnly := false, resetPc := 0#64,
    regions :=
      [{ base := 0, size := 18446744073709551616, kind := .normal, read := everyLevel,
         exec := everyLevel }] }

/-- The machine right after reset. -/
def State.reset : State := State.resetOn referencePlatform

end Sys2Proof.Machine
end

