-- ==== Sys2Proof/Machine/Flags.lean ====
section
/-!
DEFINITION. The Process State as software and the exception entry see it: the special-purpose registers
that are views of PSTATE (`10_state.md` R19, R25) and the layout of `SPSR_ELx` (R29). LD4 computes no
flag (`40_ld4_single_structure.md` R80), so the file holds no flag computation.
-/

namespace Sys2Proof.Machine

/-- One bit of a flag. -/
def bit (b : Bool) : BitVec 1 := BitVec.ofBool b

/-- The two-bit number of an Exception level. -/
def elBits : EL → BitVec 2
  | .el0 => 0#2
  | .el1 => 1#2
  | .el2 => 2#2
  | .el3 => 3#2

/-- The Exception level of a two-bit number. -/
def elOfBits (b : BitVec 2) : EL :=
  if b = 0#2 then .el0 else if b = 1#2 then .el1 else if b = 2#2 then .el2 else .el3

/-- The Exception levels in order of privilege (`10_state.md` R26). -/
def elRank : EL → Nat
  | .el0 => 0
  | .el1 => 1
  | .el2 => 2
  | .el3 => 3

/-- The level of a target of an exception. -/
def TargetEl.level : TargetEl → EL
  | .el1 => .el1
  | .el2 => .el2
  | .el3 => .el3

/-- The condition flags N, Z, C, V, most significant first (R19). -/
def nzcvBits (p : Pstate) : BitVec 4 := bit p.n ++ bit p.z ++ bit p.c ++ bit p.v

/-- The interrupt disable flags D, A, I, F, most significant first (R25). -/
def daifBits (p : Pstate) : BitVec 4 := bit p.d ++ bit p.a ++ bit p.i ++ bit p.f

/-- The register NZCV: the flags in bits 31:28 (R19). PRESUMED: its width, and the other bits 0
(entry 32). -/
def nzcvRegister (p : Pstate) : Word := (nzcvBits p).setWidth 64 <<< 28

/-- The register DAIF: bits 9:6 are D, A, I, F (R25). PRESUMED: its width, and the other bits 0
(entry 32). -/
def daifRegister (p : Pstate) : Word := (daifBits p).setWidth 64 <<< 6

/-- The register SPSel: bit 0 (R25). PRESUMED: its width, and the other bits 0 (entry 32). -/
def spSelRegister (p : Pstate) : Word := (bit p.spSel).setWidth 64

/-- The register CurrentEL: bits 3:2 (R25). PRESUMED: its width, and the other bits 0 (entry 32). -/
def currentElRegister (p : Pstate) : Word := (elBits p.el).setWidth 64 <<< 2

/-- PSTATE as `SPSR_ELx` holds it (R29): N, Z, C, V in bits 31:28, SS bit 21, IL bit 20, D, A, I, F in
bits 9:6, register width bit 4, EL in bits 3:2, bit 1 zero, SPSel bit 0. DESIGN CHOICE: the bits R29 does
not list (27:22, 19:10 and 5) are 0 (entry 33). -/
def spsrOfPstate (p : Pstate) : BitVec 32 :=
  nzcvBits p ++ 0#6 ++ bit p.ss ++ bit p.il ++ 0#10 ++ daifBits p ++ 0#1 ++ bit p.nRW ++ elBits p.el
    ++ 0#1 ++ bit p.spSel

/-- The PSTATE that `SPSR_ELx` holds (R29); UAO and PAN have no place there and are kept (entry 23). -/
def pstateOfSpsr (old : Pstate) (r : BitVec 32) : Pstate :=
  { old with
    n := r.getLsbD 31
    z := r.getLsbD 30
    c := r.getLsbD 29
    v := r.getLsbD 28
    ss := r.getLsbD 21
    il := r.getLsbD 20
    d := r.getLsbD 9
    a := r.getLsbD 8
    i := r.getLsbD 7
    f := r.getLsbD 6
    nRW := r.getLsbD 4
    el := elOfBits (r.extractLsb' 2 2)
    spSel := r.getLsbD 0 }

end Sys2Proof.Machine
end

