-- ==== Sys2Proof/Machine/Memory.lean ====
section
/-!
DEFINITION. Memory as data (`20_memory.md` R42): reading and writing one byte of the address space,
the canonical form, and the program text held apart from memory (R62).
-/

namespace Sys2Proof.Machine

/-- What a byte reads as that nothing has written. DESIGN CHOICE: the spec gives memory no contents
after reset (`70_reset_and_hazards.md` R113; entry 4). -/
def unlistedByte : Byte := 0#8

/-- The byte at an address of a list of cells, or the default. -/
def cellAt (default : Byte) (a : Nat) : List Host.Cell → Byte
  | [] => default
  | (b, u) :: rest => if b = a then u else cellAt default a rest

/-- The byte of memory at an address. -/
def Memory.read (m : Memory) (a : Word) : Byte := cellAt unlistedByte a.toNat m

/-- A cell put into its place, or taken away when its byte is what an unlisted address reads as. -/
def putCell (a : Nat) (u : Byte) : List Host.Cell → List Host.Cell
  | [] => if u = unlistedByte then [] else [(a, u)]
  | (b, w) :: rest =>
    if a < b then (if u = unlistedByte then (b, w) :: rest else (a, u) :: (b, w) :: rest)
    else if a = b then (if u = unlistedByte then rest else (a, u) :: rest)
    else (b, w) :: putCell a u rest

/-- Memory with one byte written. -/
def Memory.write (m : Memory) (a : Word) (u : Byte) : Memory := putCell a.toNat u m

/-- Memory with consecutive bytes written from an address upward, addresses modulo 2^64. -/
def Memory.writeBytes (m : Memory) (a : Word) : List Byte → Memory
  | [] => m
  | u :: us => Memory.writeBytes (Memory.write m a u) (a + 1#64) us

/-- Every address of the list is above a bound and the addresses rise strictly. -/
def cellsRise (bound : Option Nat) : List Host.Cell → Bool
  | [] => true
  | (b, _) :: rest =>
    (match bound with
      | none => true
      | some l => decide (l < b)) && cellsRise (some b) rest

/-- The canonical form of a memory: addresses strictly rising and below 2^64, and no cell equal to what
an unlisted address reads as. -/
def Memory.wf (m : Memory) : Bool :=
  cellsRise none m && m.all (fun c => decide (c.1 < 2 ^ 64) && c.2 != unlistedByte)

/-- The byte of the program text at an address, where the text lists one. -/
def ProgramText.lookup (t : ProgramText) (a : Word) : Option Byte :=
  match t with
  | [] => none
  | (b, u) :: rest => if b = a.toNat then some u else ProgramText.lookup rest a

/-- The canonical form of a program text: addresses strictly rising and below 2^64. -/
def ProgramText.wf (t : ProgramText) : Bool :=
  cellsRise none t && t.all (fun c => decide (c.1 < 2 ^ 64))

/-- The program text without the cells of `n` consecutive addresses from `a` upward. -/
def ProgramText.erase (t : ProgramText) (a : Word) : Nat → ProgramText
  | 0 => t
  | n + 1 => ProgramText.erase (t.filter (fun c => c.1 != a.toNat)) (a + 1#64) n

end Sys2Proof.Machine
end

