-- ==== Sys2Proof/Machine/Platform.lean ====
section
/-!
DEFINITION. The questions a step asks of the platform: which Exception levels are implemented
(`00_scope.md` R6) and what an address holds (`20_memory.md` R50 to R52, R56, R62).
-/

namespace Sys2Proof.Machine

/-- `HaveEL(x)` of `60_exceptions.md` R99: EL0 and EL1 are always implemented (`92_eei_decisions.md`
D3). -/
def haveEl (p : Platform) : EL → Bool
  | .el0 => true
  | .el1 => true
  | .el2 => p.hasEl2
  | .el3 => p.hasEl3

/-- Whether a permission holds for a level. -/
def ElSet.allows (p : ElSet) : EL → Bool
  | .el0 => p.el0
  | .el1 => p.el1
  | .el2 => p.el2
  | .el3 => p.el3

/-- The address lies in the region. -/
def Region.holds (r : Region) (a : Word) : Bool :=
  decide (r.base ≤ a.toNat) && decide (a.toNat < r.base + r.size)

/-- The region of an address: the first of the list that holds it. -/
def regionAt (p : Platform) (a : Word) : Option Region :=
  p.regions.find? (fun r => Region.holds r a)

/-- The address is mapped and the level may read it: the predicate of R50, before the memory kind of
R51 is looked at. -/
def mayRead (p : Platform) (el : EL) (a : Word) : Bool :=
  match regionAt p a with
  | none => false
  | some r => ElSet.allows r.read el

/-- The address is a location with read side effects (R51). -/
def isDevice (p : Platform) (a : Word) : Bool :=
  match regionAt p a with
  | none => false
  | some r => decide (r.kind = .device)

/-- Another observer may write the location (R56(c), R62). -/
def isShared (p : Platform) (a : Word) : Bool :=
  match regionAt p a with
  | none => false
  | some r => decide (r.kind = .shared)

/-- `Executable(a, el)` of R52: mapped and fetchable at the level. DESIGN CHOICE: a location with read
side effects is never executable, whatever its region's `exec` permission says, so a fetch from it takes
an instruction abort; R52 leaves the predicate open (entry 31). -/
def mayExecute (p : Platform) (el : EL) (a : Word) : Bool :=
  match regionAt p a with
  | none => false
  | some r => ElSet.allows r.exec el && decide (r.kind ≠ .device)

end Sys2Proof.Machine
end

