-- ==== Sys2Proof/Machine/Ops.lean ====
section
/-!
DEFINITION. The named operations over registers and memory: reading and writing each kind of register,
what the level and Security state select (`10_state.md` R17, R27, R34), taking an exception
(`60_exceptions.md` R97, R101, R102) and returning from one (R104).
-/

namespace Sys2Proof.Machine

/-! ### Reading and writing registers -/

/-- `X[i]` (R8, R13). -/
def State.readX (s : State) (i : Fin 31) : Word := s.x[i]

/-- `X[i] <- w`. -/
def State.writeX (s : State) (i : Fin 31) (w : Word) : State := { s with x := s.x.set i w }

/-- `V[i]` (R8, R21). -/
def State.readV (s : State) (i : Fin 32) : VWord := s.v[i]

/-- The vector registers written all at once. -/
def State.setVregs (s : State) (v : Vector VWord 32) : State := { s with v := v }

/-- `pc <- a`. -/
def State.setPc (s : State) (a : Word) : State := { s with pc := a }

/-- PSTATE written. -/
def State.setPstate (s : State) (p : Pstate) : State := { s with pstate := p }

/-- Memory and program text written: a load from outside, no step does this. -/
def State.setProgram (s : State) (m : Memory) (t : ProgramText) : State := { s with mem := m, text := t }

/-- The registers of a level above EL0. -/
def State.bank (s : State) : TargetEl → Bank
  | .el1 => s.bank1
  | .el2 => s.bank2
  | .el3 => s.bank3

/-- The registers of a level above EL0, written. -/
def State.setBank (s : State) (x : TargetEl) (b : Bank) : State :=
  match x with
  | .el1 => { s with bank1 := b }
  | .el2 => { s with bank2 := b }
  | .el3 => { s with bank3 := b }

/-- The free-value counter advanced: every completed step does this once (entry 11). -/
def State.tick (s : State) : State := { s with freeCount := s.freeCount + 1 }

/-- The bank of a level, where the level has one. -/
def targetOfLevel : EL → Option TargetEl
  | .el0 => none
  | .el1 => some .el1
  | .el2 => some .el2
  | .el3 => some .el3

/-- SP_EL0 to SP_EL3 (R17). -/
def State.spAt (s : State) : EL → Word
  | .el0 => s.spEl0
  | .el1 => s.bank1.sp
  | .el2 => s.bank2.sp
  | .el3 => s.bank3.sp

/-- One of SP_EL0 to SP_EL3 written. -/
def State.setSpAt (s : State) (l : EL) (w : Word) : State :=
  match l with
  | .el0 => { s with spEl0 := w }
  | .el1 => { s with bank1 := { s.bank1 with sp := w } }
  | .el2 => { s with bank2 := { s.bank2 with sp := w } }
  | .el3 => { s with bank3 := { s.bank3 with sp := w } }

/-- The level whose stack pointer `SP` names: EL0 when `PSTATE.SPSel` is 0, else the current one (R17). -/
def State.spLevel (s : State) : EL := if s.pstate.spSel then s.pstate.el else .el0

/-- `SP` (R17). -/
def State.readSp (s : State) : Word := s.spAt s.spLevel

/-- `SP <- w` (R17). -/
def State.writeSp (s : State) (w : Word) : State := s.setSpAt s.spLevel w

/-! ### What the level and the Security state select -/

/-- Whether the levels below EL3 are Secure (R27): with EL3, when `SCR_EL3.NS` (bit 0) is 0. DEDUCED:
without EL3, an implementation that has EL2 is Non-secure, EL2 existing only in that state, and otherwise
the platform says (entry 17). -/
def State.lowerSecure (s : State) : Bool :=
  if s.platform.hasEl3 then !s.sys.scrEl3.getLsbD 0
  else s.platform.secureOnly && !s.platform.hasEl2

/-- The `Secure` bit of R27: EL3 is always Secure. -/
def State.secure (s : State) : Bool :=
  (s.platform.hasEl3 && decide (s.pstate.el = .el3)) || s.lowerSecure

/-- The PE has EL2 and is in Non-secure state: EL2's controls apply. -/
def State.el2Applies (s : State) : Bool := haveEl s.platform .el2 && !s.secure

/-- `HCR_EL2.TGE`, bit 27 (R35). -/
def State.tge (s : State) : Bool := s.sys.hcrEl2.getLsbD 27

/-- `HCR_EL2.E2H`, bit 34 (R35). -/
def State.e2h (s : State) : Bool := s.sys.hcrEl2.getLsbD 34

/-- `CPACR_EL1.FPEN`, bits 21:20 (R31). -/
def State.fpen (s : State) : BitVec 2 := s.sys.cpacrEl1.extractLsb' 20 2

/-- `CPTR_EL2.TFP`, bit 10 (R32). -/
def State.tfpEl2 (s : State) : Bool := s.sys.cptrEl2.getLsbD 10

/-- `CPTR_EL3.TFP`, bit 10 (R33). -/
def State.tfpEl3 (s : State) : Bool := s.sys.cptrEl3.getLsbD 10

/-- The SCTLR of the translation regime of the current level: SCTLR_EL1 at EL0 and EL1 (R34). -/
def State.sctlr (s : State) : BitVec 32 :=
  match s.pstate.el with
  | .el0 => s.bank1.sctlr
  | .el1 => s.bank1.sctlr
  | .el2 => s.bank2.sctlr
  | .el3 => s.bank3.sctlr

/-- `ALIGN_CHECK`: the `A` bit, bit 1, of the current regime's SCTLR (R34, D6; entry 15). -/
def State.alignCheck (s : State) : Bool := s.sctlr.getLsbD 1

/-- `BIG_ENDIAN_DATA`: `SCTLR_EL1.E0E`, bit 24, at EL0, else `SCTLR_ELx.EE`, bit 25 (R34; entry 15). -/
def State.bigEndianData (s : State) : Bool :=
  match s.pstate.el with
  | .el0 => s.sctlr.getLsbD 24
  | .el1 => s.sctlr.getLsbD 25
  | .el2 => s.sctlr.getLsbD 25
  | .el3 => s.sctlr.getLsbD 25

/-- The byte a data read returns at an address: the byte of memory, or a free value where another
observer may write (`20_memory.md` R56). -/
def State.dataByte (s : State) (a : Word) : Byte :=
  if isShared s.platform a then Config.observedByte s.freeCount a else Memory.read s.mem a

/-! ### Taking an exception -/

/-- The kinds of exception that have a vector of their own (R102). -/
inductive VectorKind where
  | synchronous
  | irq
  | fiq
  | serror
deriving DecidableEq, Repr

/-- The offset of a kind within its group of vectors (R102). -/
def vectorKindOffset : VectorKind → Word
  | .synchronous => 0x000#64
  | .irq => 0x080#64
  | .fiq => 0x100#64
  | .serror => 0x180#64

/-- The offset from `VBAR_ELx` at which the handler starts (R102). -/
def vectorOffset (x : TargetEl) (old : Pstate) (kind : VectorKind) : Word :=
  (if elRank x.level > elRank old.el then 0x400#64
   else if !old.spSel then 0x000#64 else 0x200#64) + vectorKindOffset kind

/-- The PSTATE a handler at a level starts with (R102). UAO and PAN are kept (entry 23). -/
def handlerPstate (x : TargetEl) (old : Pstate) : Pstate :=
  { old with
    el := x.level, nRW := false, spSel := true, d := true, a := true, i := true, f := true,
    ss := false, il := false }

/-- `TakeException(x, ESR_value, FAR_value or none, return_address)` of R102. -/
def takeException (x : TargetEl) (kind : VectorKind) (esr : BitVec 32) (faultAddr : Option Word)
    (returnAddr : Word) (s : State) : State :=
  let b := s.bank x
  ((s.setBank x
      { b with spsr := spsrOfPstate s.pstate, elr := returnAddr, esr := esr,
               far := faultAddr.getD b.far }).setPstate (handlerPstate x s.pstate)).setPc
    (b.vbar + vectorOffset x s.pstate kind)

/-- The level that takes an exception which has no target of its own (R101): EL1 from EL0, or EL2 when
`HCR_EL2.TGE` re-routes it there; from a higher level the same level. -/
def defaultTarget (s : State) : TargetEl :=
  match s.pstate.el with
  | .el0 => if s.el2Applies && s.tge then .el2 else .el1
  | .el1 => .el1
  | .el2 => .el2
  | .el3 => .el3

/-- The level that takes an exception (R101). -/
def exceptionTarget (e : SyncException) (s : State) : TargetEl :=
  match e with
  | .simdAccessTrap x => x
  | .pcAlignmentFault _ => defaultTarget s
  | .instructionAbort _ => defaultTarget s
  | .illegalState => defaultTarget s
  | .undefinedInstruction => defaultTarget s
  | .spAlignmentFault => defaultTarget s
  | .dataAbortAlignment _ => defaultTarget s
  | .dataAbortOther _ => defaultTarget s

/-- `ESR_ELx = EC<<26 | IL<<25 | ISS` with `IL = 1` (R97, `10_state.md` R30). -/
def esrWord (ec : BitVec 6) (iss : BitVec 25) : BitVec 32 := ec ++ 1#1 ++ iss

/-- The exception class of an abort, one more when it is taken to the level it was raised at (R97). -/
def abortClass (lower : BitVec 6) (target : TargetEl) (s : State) : BitVec 6 :=
  if target.level = s.pstate.el then lower + 1#6 else lower

/-- The `DFSC` field of a data fault kind (R97). -/
def dfscOf : DataFaultStatus → BitVec 6
  | .translation ll => 0b0001#4 ++ ll
  | .accessFlag ll => 0b0010#4 ++ ll
  | .permission ll => 0b0011#4 ++ ll
  | .syncExternal => 0b010000#6

/-- The value an exception writes to `ESR_ELx` (the table of R97). -/
def syndrome (e : SyncException) (s : State) : BitVec 32 :=
  match e with
  | .pcAlignmentFault _ => esrWord 0x22#6 0#25
  | .instructionAbort _ =>
    esrWord (abortClass 0x20#6 (exceptionTarget e s) s)
      ((Config.instrFaultStatus s.freeCount).setWidth 25)
  | .illegalState => esrWord 0x0E#6 0#25
  | .undefinedInstruction => esrWord 0x00#6 0#25
  | .simdAccessTrap _ => esrWord 0x07#6 0x1E00000#25
  | .spAlignmentFault => esrWord 0x26#6 0#25
  | .dataAbortAlignment _ => esrWord (abortClass 0x24#6 (exceptionTarget e s) s) 0b100001#25
  | .dataAbortOther _ =>
    esrWord (abortClass 0x24#6 (exceptionTarget e s) s)
      ((dfscOf (Config.dataFaultStatus s.freeCount)).setWidth 25)

/-- The value an exception writes to `FAR_ELx`, or none where it leaves the register (R97). -/
def faultAddress (e : SyncException) (s : State) : Option Word :=
  match e with
  | .pcAlignmentFault pc => some pc
  | .instructionAbort pc => some pc
  | .illegalState => none
  | .undefinedInstruction => none
  | .simdAccessTrap _ => none
  | .spAlignmentFault => some (Config.unknownFar s.freeCount)
  | .dataAbortAlignment addr => some addr
  | .dataAbortOther addr => some addr

/-- A synchronous exception taken from a state: the return address is the address of the instruction
(R102). -/
def takeSync (e : SyncException) (s : State) : State :=
  (takeException (exceptionTarget e s) .synchronous (syndrome e s) (faultAddress e s) s.pc s).tick

/-- What the machine does with an outcome of R9: the exception of a `Fault` is taken from the state at the
fault by the entry of R102 (entry 1). -/
def SpecOutcome.taken : SpecOutcome → Host.Outcome State Fault Refusal
  | .next s => .next s
  | .fault e s => .next (takeSync e s)
  | .refused r => .refused r

/-! ### Returning from an exception (R104) -/

/-- The mode bits `M[3:0]` name one of the seven modes of `10_state.md` R29. -/
def knownMode (r : BitVec 32) : Bool :=
  !r.getLsbD 1 && (r.extractLsb' 2 2 != 0#2 || !r.getLsbD 0)

/-- The return to the mode in `r` is legal: a known mode, of an implemented level, not above the current
one ("it can either decrease or remain the same", R96), and EL2 only in Non-secure state (R27;
entry 22). -/
def legalReturn (r : BitVec 32) (s : State) : Bool :=
  let el := elOfBits (r.extractLsb' 2 2)
  knownMode r && haveEl s.platform el && decide (elRank el ≤ elRank s.pstate.el) &&
    (el != .el2 || !s.lowerSecure)

/-- The PSTATE after an illegal return: `PSTATE.IL` is set. DESIGN CHOICE: level, stack pointer selection
and register width stay, flags and masks come from the SPSR (entry 22). -/
def illegalReturnPstate (old : Pstate) (r : BitVec 32) : Pstate :=
  { pstateOfSpsr old r with el := old.el, spSel := old.spSel, nRW := old.nRW, il := true }

/-- The exception return of R104: PSTATE from `SPSR_ELn`, the pc from `ELR_ELn`, where n is the current
level; undefined at EL0. `ERET` itself is not admitted, so no step calls this (entry 22). -/
def exceptionReturn (s : State) : Host.Outcome State Fault Refusal :=
  match targetOfLevel s.pstate.el with
  | none => .next (takeSync .undefinedInstruction s)
  | some x =>
    let r := (s.bank x).spsr
    if r.getLsbD 4 then .refused .aarch32State
    else
      .next ((s.setPstate
        (if legalReturn r s then pstateOfSpsr s.pstate r else illegalReturnPstate s.pstate r)).setPc
          (s.bank x).elr)

end Sys2Proof.Machine
end

