-- ==== Sys2Proof/Machine/Operands.lean ====
section
/-!
DEFINITION. The operand forms of LD4: elements and lanes (`10_state.md` R22), element reads with their
checks (`20_memory.md` R43 to R51), the base operand (R49), the register list (`30_encoding.md` R67) and
the post-index offset (R68).
-/

namespace Sys2Proof.Machine

/-- `ebytes`, the size of an element in bytes (R46). -/
def elemBytes : ElemSize → Nat
  | .b => 1
  | .h => 2
  | .s => 4
  | .d => 8

/-- `esize`, the size of an element in bits. -/
def elemBits (sz : ElemSize) : Nat := 8 * elemBytes sz

/-- `Elem(v, e, esize)`: element `e` of a register, in the low bits (`00_scope.md` R8, R22). -/
def elem (v : VWord) (e esize : Nat) : BitVec 64 := (v.extractLsb' (e * esize) esize).setWidth 64

/-- `SetElem(v, e, esize, x)`: `v` with exactly the bits of element `e` replaced by the low `esize` bits
of `x` (`00_scope.md` R8, R22). -/
def setElem (v : VWord) (e esize : Nat) (x : BitVec 64) : VWord :=
  let mask : VWord := BitVec.ofNat 128 (2 ^ esize - 1) <<< (e * esize)
  (v &&& ~~~mask) ||| ((x.setWidth 128 <<< (e * esize)) &&& mask)

/-! ### Element reads -/

/-- The value of bytes in memory order, the first byte least significant (R43). -/
def joinBytes : List Byte → BitVec 64
  | [] => 0#64
  | u :: us => u.setWidth 64 ||| (joinBytes us <<< 8)

/-- The addresses of the bytes of an element, lowest first, modulo 2^64 (R41, R43). -/
def byteAddresses (a : Word) (n : Nat) : List Word :=
  (List.range n).map (fun k => a + BitVec.ofNat 64 k)

/-- The value an element read returns, in the current data byte order (R43, R44). -/
def elementValue (s : State) (a : Word) (sz : ElemSize) : BitVec 64 :=
  let bytes := (byteAddresses a (elemBytes sz)).map s.dataByte
  joinBytes (if s.bigEndianData then bytes.reverse else bytes)

/-- The check of an element's alignment (R48). -/
def misaligned (s : State) (a : Word) (sz : ElemSize) : Bool :=
  s.alignCheck && a.toNat % elemBytes sz != 0

/-- `MemRead(addr, n)` with its checks (R47 (4)): alignment (R48), accessibility of every byte, the
lowest failing one reported (R50), then the memory kind (R51). -/
def memRead (s : State) (a : Word) (sz : ElemSize) : Except Stop (BitVec 64) :=
  if misaligned s a sz then .error (.raise (.dataAbortAlignment a))
  else
    match (byteAddresses a (elemBytes sz)).find? (fun b => !mayRead s.platform s.pstate.el b) with
    | some b => .error (.raise (.dataAbortOther b))
    | none =>
      match (byteAddresses a (elemBytes sz)).find? (fun b => isDevice s.platform b) with
      | some b => .error (.refuse (.deviceMemory b))
      | none => .ok (elementValue s a sz)

/-- The address of element `k` of a structure: `base + k*ebytes` modulo 2^64 (R41, R46). -/
def elementAddress (base : Word) (sz : ElemSize) (k : Nat) : Word :=
  base + BitVec.ofNat 64 (k * elemBytes sz)

/-- The element reads at the listed positions of a structure, in order; the first that fails ends the
instruction (R47). -/
def readElements (s : State) (base : Word) (sz : ElemSize) : List Nat → Except Stop (List (BitVec 64))
  | [] => .ok []
  | k :: ks =>
    match memRead s (elementAddress base sz k) sz with
    | .error e => .error e
    | .ok x =>
      match readElements s base sz ks with
      | .error e => .error e
      | .ok xs => .ok (x :: xs)

/-- The four element reads of one LD4 (R46). -/
def readStructure (s : State) (base : Word) (sz : ElemSize) : Except Stop (List (BitVec 64)) :=
  readElements s base sz [0, 1, 2, 3]

/-! ### The register list, the base and the offset -/

/-- The registers of the list from `t` upward, each with one lane replaced; register numbers are
modulo 32 (`30_encoding.md` R67). -/
def writeLanes (v : Vector VWord 32) (t : Fin 32) (index : Nat) (sz : ElemSize) :
    List (BitVec 64) → Vector VWord 32
  | [] => v
  | x :: xs => writeLanes (v.set t (setElem v[t] index (elemBits sz) x)) (t + 1) index sz xs

/-- The base operand: `X[n]`, or `SP` after `CheckSPAlignment()` (R49), which is always made
(`92_eei_decisions.md` D7; entry 16). -/
def readBase (s : State) : XSp → Except Stop Word
  | .x n => .ok (s.readX n)
  | .sp => if s.readSp.toNat % 16 ≠ 0 then .error (.raise .spAlignmentFault) else .ok s.readSp

/-- The base register written back. -/
def writeBase (s : State) (n : XSp) (w : Word) : State :=
  match n with
  | .x n => s.writeX n w
  | .sp => s.writeSp w

/-- The post-index offset: `X[m]`, or `4 * ebytes` (`30_encoding.md` R68). -/
def offsetValue (s : State) (sz : ElemSize) : PostIndex → Option Word
  | .none => none
  | .imm => some (BitVec.ofNat 64 (4 * elemBytes sz))
  | .reg m => some (s.readX m)

end Sys2Proof.Machine
end

