-- ==== Sys2Proof/Machine/Ld4.lean ====
section
/-!
DEFINITION. The twelve forms of `LD4 (vector, single structure)` (`40_ld4_single_structure.md`): the
shared operation of R78 with its checks (R82) and the state it leaves on an exception
(`60_exceptions.md` R103), and one meaning for each form (R84 to R95), which takes that exception
(entry 1).
-/

namespace Sys2Proof.Machine

/-- Advanced SIMD is disabled at EL0 or EL1 by `CPACR_EL1.FPEN` (R99). -/
def fpenDisables (s : State) : Bool :=
  match s.pstate.el with
  | .el0 => decide (s.fpen ≠ 0b11#2)
  | .el1 => decide (s.fpen = 0b00#2 ∨ s.fpen = 0b10#2)
  | .el2 => false
  | .el3 => false

/-- The trap decision of `CheckSIMDEnabled()` (R99): EL1's control, then EL2's, then EL3's. -/
def simdTrap (s : State) : Option SyncException :=
  if fpenDisables s then
    if decide (s.pstate.el = .el0) && s.el2Applies && s.tge then some .undefinedInstruction
    else some (.simdAccessTrap .el1)
  else if s.el2Applies && decide (elRank s.pstate.el ≤ elRank .el2) && s.tfpEl2 then
    some (.simdAccessTrap .el2)
  else if haveEl s.platform .el3 && s.tfpEl3 then some (.simdAccessTrap .el3)
  else none

/-- `CheckSIMDEnabled()` (R99). Without Advanced SIMD the word is UNDEFINED (R98; entry 27); with
`HCR_EL2.E2H = 1` the procedure is not admitted (D4; entry 13). -/
def checkSimdEnabled (s : State) : Except Stop Unit :=
  if !s.platform.advSimd then .error (.raise .undefinedInstruction)
  else if haveEl s.platform .el2 && s.e2h then .error (.refuse .hostExtensionsEnabled)
  else
    match simdTrap s with
    | some e => .error (.raise e)
    | none => .ok ()

/-- The checks and reads of R78: the base address and the four elements, or what stopped them. -/
def ld4Load (n : XSp) (sz : ElemSize) (s : State) : Except Stop (Word × List (BitVec 64)) :=
  match checkSimdEnabled s with
  | .error e => .error e
  | .ok _ =>
    match readBase s n with
    | .error e => .error e
    | .ok base =>
      match readStructure s base sz with
      | .error e => .error e
      | .ok es => .ok (base, es)

/-- Four free values for the destination lanes (R103; entry 7). -/
def unknownLanes (s : State) : List (BitVec 64) :=
  [Config.unknownLane s.freeCount 0, Config.unknownLane s.freeCount 1,
   Config.unknownLane s.freeCount 2, Config.unknownLane s.freeCount 3]

/-- The state at an exception, before its entry (R103): on a Data Abort the four destination lanes are
UNKNOWN, otherwise nothing has changed. -/
def ld4AtFault (e : SyncException) (t : Fin 32) (index : Nat) (sz : ElemSize) (s : State) : State :=
  match e with
  | .dataAbortAlignment _ => s.setVregs (writeLanes s.v t index sz (unknownLanes s))
  | .dataAbortOther _ => s.setVregs (writeLanes s.v t index sz (unknownLanes s))
  | .pcAlignmentFault _ => s
  | .instructionAbort _ => s
  | .illegalState => s
  | .undefinedInstruction => s
  | .simdAccessTrap _ => s
  | .spAlignmentFault => s

/-- The writes of R78: the lanes, the base where the form is post-indexed (with the offset register's
value before the instruction), the pc. -/
def ld4Commit (t : Fin 32) (n : XSp) (index : Nat) (sz : ElemSize) (post : PostIndex) (base : Word)
    (es : List (BitVec 64)) (s : State) : State :=
  let loaded := s.setVregs (writeLanes s.v t index sz es)
  let based :=
    match offsetValue s sz post with
    | none => loaded
    | some offs => writeBase loaded n (base + offs)
  (based.setPc (s.pc + 4#64)).tick

/-- `LD4_single` of R78, with the outcome of `00_scope.md` R9. -/
def ld4Single (sz : ElemSize) (post : PostIndex) (t : Fin 32) (n : XSp) (index : Nat) (s : State) :
    SpecOutcome :=
  match ld4Load n sz s with
  | .error (.refuse r) => .refused r
  | .error (.raise e) => .fault e (ld4AtFault e t index sz s)
  | .ok (base, es) => .next (ld4Commit t n index sz post base es s)

/-- `LD4 { Vt.B .. Vt4.B }[index], [Xn|SP]` (R84). -/
def execLd4B (t : Fin 32) (n : XSp) (index : Nat) (s : State) : Host.Outcome State Fault Refusal :=
  (ld4Single .b .none t n index s).taken

/-- `LD4 { Vt.H .. Vt4.H }[index], [Xn|SP]` (R85). -/
def execLd4H (t : Fin 32) (n : XSp) (index : Nat) (s : State) : Host.Outcome State Fault Refusal :=
  (ld4Single .h .none t n index s).taken

/-- `LD4 { Vt.S .. Vt4.S }[index], [Xn|SP]` (R86). -/
def execLd4S (t : Fin 32) (n : XSp) (index : Nat) (s : State) : Host.Outcome State Fault Refusal :=
  (ld4Single .s .none t n index s).taken

/-- `LD4 { Vt.D .. Vt4.D }[index], [Xn|SP]` (R87). -/
def execLd4D (t : Fin 32) (n : XSp) (index : Nat) (s : State) : Host.Outcome State Fault Refusal :=
  (ld4Single .d .none t n index s).taken

/-- `LD4 { Vt.B .. Vt4.B }[index], [Xn|SP], #4` (R88). -/
def execLd4BImm (t : Fin 32) (n : XSp) (index : Nat) (s : State) : Host.Outcome State Fault Refusal :=
  (ld4Single .b .imm t n index s).taken

/-- `LD4 { Vt.B .. Vt4.B }[index], [Xn|SP], Xm` (R89). -/
def execLd4BReg (t : Fin 32) (n : XSp) (index : Nat) (m : Fin 31) (s : State) :
    Host.Outcome State Fault Refusal :=
  (ld4Single .b (.reg m) t n index s).taken

/-- `LD4 { Vt.H .. Vt4.H }[index], [Xn|SP], #8` (R90). -/
def execLd4HImm (t : Fin 32) (n : XSp) (index : Nat) (s : State) : Host.Outcome State Fault Refusal :=
  (ld4Single .h .imm t n index s).taken

/-- `LD4 { Vt.H .. Vt4.H }[index], [Xn|SP], Xm` (R91). -/
def execLd4HReg (t : Fin 32) (n : XSp) (index : Nat) (m : Fin 31) (s : State) :
    Host.Outcome State Fault Refusal :=
  (ld4Single .h (.reg m) t n index s).taken

/-- `LD4 { Vt.S .. Vt4.S }[index], [Xn|SP], #16` (R92). -/
def execLd4SImm (t : Fin 32) (n : XSp) (index : Nat) (s : State) : Host.Outcome State Fault Refusal :=
  (ld4Single .s .imm t n index s).taken

/-- `LD4 { Vt.S .. Vt4.S }[index], [Xn|SP], Xm` (R93). -/
def execLd4SReg (t : Fin 32) (n : XSp) (index : Nat) (m : Fin 31) (s : State) :
    Host.Outcome State Fault Refusal :=
  (ld4Single .s (.reg m) t n index s).taken

/-- `LD4 { Vt.D .. Vt4.D }[index], [Xn|SP], #32` (R94). -/
def execLd4DImm (t : Fin 32) (n : XSp) (index : Nat) (s : State) : Host.Outcome State Fault Refusal :=
  (ld4Single .d .imm t n index s).taken

/-- `LD4 { Vt.D .. Vt4.D }[index], [Xn|SP], Xm` (R95). -/
def execLd4DReg (t : Fin 32) (n : XSp) (index : Nat) (m : Fin 31) (s : State) :
    Host.Outcome State Fault Refusal :=
  (ld4Single .d (.reg m) t n index s).taken

end Sys2Proof.Machine
end

