-- ==== Sys2Proof/Machine/Dispatch.lean ====
section
/-!
DEFINITION. One arm for each constructor of `Instr`.
-/

namespace Sys2Proof.Machine

def exec (i : Instr) (s : State) : Host.Outcome State Fault Refusal :=
  match i with
  | .ld4B t n index => Sys2Proof.Machine.execLd4B t n index s
  | .ld4H t n index => Sys2Proof.Machine.execLd4H t n index s
  | .ld4S t n index => Sys2Proof.Machine.execLd4S t n index s
  | .ld4D t n index => Sys2Proof.Machine.execLd4D t n index s
  | .ld4BImm t n index => Sys2Proof.Machine.execLd4BImm t n index s
  | .ld4BReg t n index m => Sys2Proof.Machine.execLd4BReg t n index m s
  | .ld4HImm t n index => Sys2Proof.Machine.execLd4HImm t n index s
  | .ld4HReg t n index m => Sys2Proof.Machine.execLd4HReg t n index m s
  | .ld4SImm t n index => Sys2Proof.Machine.execLd4SImm t n index s
  | .ld4SReg t n index m => Sys2Proof.Machine.execLd4SReg t n index m s
  | .ld4DImm t n index => Sys2Proof.Machine.execLd4DImm t n index s
  | .ld4DReg t n index m => Sys2Proof.Machine.execLd4DReg t n index m s

end Sys2Proof.Machine
end

