-- ==== Sys2Proof/WellFormed.lean ====
section
/-!
DEFINITION. Which terms of `Instr` are instructions: the lane index lies in the range of the form's
element size (`30_encoding.md` R66, R72: 0 to 15, 0 to 7, 0 to 3, 0 or 1). The register operands need
no check: their types hold exactly the numbers R79 allows.
-/

namespace Sys2Proof

/-- How many lanes of each size a 128-bit register has (`10_state.md` R22). -/
def ElemSize.lanes : ElemSize → Nat
  | .b => 16
  | .h => 8
  | .s => 4
  | .d => 2

/-- The index ranges of `30_encoding.md` R66, form by form. -/
def Instr.wellFormed : Instr → Bool
  | .ld4B _ _ index => decide (index < ElemSize.lanes .b)
  | .ld4H _ _ index => decide (index < ElemSize.lanes .h)
  | .ld4S _ _ index => decide (index < ElemSize.lanes .s)
  | .ld4D _ _ index => decide (index < ElemSize.lanes .d)
  | .ld4BImm _ _ index => decide (index < ElemSize.lanes .b)
  | .ld4BReg _ _ index _ => decide (index < ElemSize.lanes .b)
  | .ld4HImm _ _ index => decide (index < ElemSize.lanes .h)
  | .ld4HReg _ _ index _ => decide (index < ElemSize.lanes .h)
  | .ld4SImm _ _ index => decide (index < ElemSize.lanes .s)
  | .ld4SReg _ _ index _ => decide (index < ElemSize.lanes .s)
  | .ld4DImm _ _ index => decide (index < ElemSize.lanes .d)
  | .ld4DReg _ _ index _ => decide (index < ElemSize.lanes .d)

end Sys2Proof
end

