-- ==== Sys2Proof/Decode.lean ====
section
/-!
DEFINITION. The decoder and the encoder of the class "Advanced SIMD load/store single structure"
(`30_encoding.md` R65 to R71). The decoder is total on words and on byte lists and rejects by name.
-/

namespace Sys2Proof

/-- What a word is: one of the twelve forms, a reserved word of the class, or not in scope
(`30_encoding.md` R70). -/
inductive Decoded where
  | instr (i : Instr)
  | reserved (why : ReservedWord)
  | notInScope (why : OtherWord)
deriving DecidableEq, Repr

/-! ### The fields of a word (R65) -/

/-- The fixed bits 29:24 of the class. -/
def fieldClass (w : InstrWord) : BitVec 6 := w.extractLsb' 24 6
/-- `Q`, bit 30. -/
def fieldQ (w : InstrWord) : BitVec 1 := w.extractLsb' 30 1
/-- `P`, bit 23: 0 no offset, 1 post-index. -/
def fieldP (w : InstrWord) : BitVec 1 := w.extractLsb' 23 1
/-- `L`, bit 22: 1 load. -/
def fieldL (w : InstrWord) : BitVec 1 := w.extractLsb' 22 1
/-- `R`, bit 21. -/
def fieldR (w : InstrWord) : BitVec 1 := w.extractLsb' 21 1
/-- `Rm`, bits 20:16. -/
def fieldRm (w : InstrWord) : BitVec 5 := w.extractLsb' 16 5
/-- `opcode`, bits 15:13. -/
def fieldOpcode (w : InstrWord) : BitVec 3 := w.extractLsb' 13 3
/-- `S`, bit 12. -/
def fieldS (w : InstrWord) : BitVec 1 := w.extractLsb' 12 1
/-- `size`, bits 11:10. -/
def fieldSize (w : InstrWord) : BitVec 2 := w.extractLsb' 10 2
/-- `Rn`, bits 9:5. -/
def fieldRn (w : InstrWord) : BitVec 5 := w.extractLsb' 5 5
/-- `Rt`, bits 4:0. -/
def fieldRt (w : InstrWord) : BitVec 5 := w.extractLsb' 0 5

/-- The vector register a 5-bit field names. -/
def vregOfField (f : BitVec 5) : Fin 32 := f.toFin

/-- The base operand a 5-bit field names: 31 is SP (R65, `10_state.md` R15). -/
def baseOfField (f : BitVec 5) : XSp :=
  if h : f.toNat < 31 then .x ⟨f.toNat, h⟩ else .sp

/-- The post-index operand of `P` and `Rm`: with `P = 1`, `Rm = 11111` is the immediate (R65, R68). -/
def postOfFields (p : BitVec 1) (rm : BitVec 5) : PostIndex :=
  if p = 0#1 then .none
  else if h : rm.toNat < 31 then .reg ⟨rm.toNat, h⟩ else .imm

/-- The lane index, a concatenation of `Q`, `S` and `size` by element size (R66). -/
def laneOfFields (sz : ElemSize) (q s : BitVec 1) (size : BitVec 2) : Nat :=
  match sz with
  | .b => 8 * q.toNat + 4 * s.toNat + size.toNat
  | .h => 4 * q.toNat + 2 * s.toNat + size.toNat / 2
  | .s => 2 * q.toNat + s.toNat
  | .d => q.toNat

/-- The element size of `opcode<2:1>`, `S` and `size`, or what the word is instead (R66, R70). -/
def sizeOfFields (opcode : BitVec 3) (s : BitVec 1) (size : BitVec 2) : Except Decoded ElemSize :=
  match opcode.toNat / 2 with
  | 0 => .ok .b
  | 1 => if size.getLsbD 0 then .error (.reserved .halfwordOddSize) else .ok .h
  | 2 =>
    if size.getLsbD 1 then .error (.reserved .wordHighSize)
    else if size = 0#2 then .ok .s
    else if s = 1#1 then .error (.reserved .doublewordWithS)
    else .ok .d
  | _ => if s = 1#1 then .error (.reserved .replicateWithS) else .error (.notInScope .ld4r)

/-- `decode(w)` of `30_encoding.md` R70. -/
def decode (w : InstrWord) : Decoded :=
  if w.getLsbD 31 || fieldClass w != 0b001101#6 then .notInScope .outsideClass
  else if fieldL w = 0#1 then .notInScope .storeForm
  else if !(fieldOpcode w).getLsbD 0 then
    if fieldR w = 1#1 then .notInScope .ld2Form else .notInScope .ld1Form
  else if fieldR w = 0#1 then .notInScope .ld3Form
  else if fieldP w = 0#1 && fieldRm w != 0#5 then .reserved .offsetWithoutPostIndex
  else
    match sizeOfFields (fieldOpcode w) (fieldS w) (fieldSize w) with
    | .error other => other
    | .ok sz =>
      .instr (Instr.ofOperands sz (postOfFields (fieldP w) (fieldRm w)) (vregOfField (fieldRt w))
        (baseOfField (fieldRn w)) (laneOfFields sz (fieldQ w) (fieldS w) (fieldSize w)))

/-- The word of four bytes in memory order: instruction words are little-endian (`20_memory.md` R45). -/
def wordOfBytes (b0 b1 b2 b3 : Byte) : InstrWord := b3 ++ b2 ++ b1 ++ b0

/-- The decoder on any bytes, the lowest address first: the word of the first four and what follows. -/
def decodeBytes : List Byte → Decoded × List Byte
  | b0 :: b1 :: b2 :: b3 :: rest => (decode (wordOfBytes b0 b1 b2 b3), rest)
  | short => (.notInScope .truncated, short)

/-! ### The encoder (R65, R66) -/

/-- The word with the given fields (R65). -/
def wordOfFields (q p : BitVec 1) (rm : BitVec 5) (opcode : BitVec 3) (s : BitVec 1) (size : BitVec 2)
    (rn rt : BitVec 5) : InstrWord :=
  0#1 ++ q ++ 0b001101#6 ++ p ++ 1#1 ++ 1#1 ++ rm ++ opcode ++ s ++ size ++ rn ++ rt

/-- The field of a base operand. -/
def fieldOfBase : XSp → BitVec 5
  | .x n => BitVec.ofNat 5 n.val
  | .sp => 31#5

/-- The fields `P` and `Rm` of a post-index operand (R68, R69). -/
def fieldsOfPost : PostIndex → BitVec 1 × BitVec 5
  | .none => (0#1, 0#5)
  | .imm => (1#1, 31#5)
  | .reg m => (1#1, BitVec.ofNat 5 m.val)

/-- The `opcode` field of an element size (R65). -/
def opcodeOfSize : ElemSize → BitVec 3
  | .b => 0b001#3
  | .h => 0b011#3
  | .s => 0b101#3
  | .d => 0b101#3

/-- The fields `Q`, `S` and `size` of a lane index (R66). -/
def fieldsOfLane (sz : ElemSize) (index : Nat) : BitVec 1 × BitVec 1 × BitVec 2 :=
  match sz with
  | .b => (BitVec.ofNat 1 (index / 8), BitVec.ofNat 1 (index / 4), BitVec.ofNat 2 index)
  | .h => (BitVec.ofNat 1 (index / 4), BitVec.ofNat 1 (index / 2), BitVec.ofNat 2 (2 * (index % 2)))
  | .s => (BitVec.ofNat 1 (index / 2), BitVec.ofNat 1 index, 0b00#2)
  | .d => (BitVec.ofNat 1 index, 0#1, 0b01#2)

/-- The word of an instruction (R65 to R69). -/
def encode (i : Instr) : InstrWord :=
  let post := fieldsOfPost i.post
  let lane := fieldsOfLane i.elemSize i.lane
  wordOfFields lane.1 post.1 post.2 (opcodeOfSize i.elemSize) lane.2.1 lane.2.2 (fieldOfBase i.base)
    (BitVec.ofFin i.first)

/-- The four bytes of a word in memory order (R45). -/
def bytesOfWord (w : InstrWord) : List Byte :=
  [w.extractLsb' 0 8, w.extractLsb' 8 8, w.extractLsb' 16 8, w.extractLsb' 24 8]

/-- The bytes of an instruction in memory order. -/
def encodeBytes (i : Instr) : List Byte := bytesOfWord (encode i)

/-- The word of a row of `spec/opcode_table.json` given as its number: the low `nbits` bits, every
other bit of the instruction 0. -/
def tableWord (nbits w : Nat) : InstrWord := BitVec.ofNat 32 (w % 2 ^ nbits)

/-- What the decoder reads from the bytes of that word in memory. -/
def decodeTableWord (nbits w : Nat) : Option Instr :=
  match (decodeBytes (bytesOfWord (tableWord nbits w))).1 with
  | .instr i => some i
  | .reserved _ => none
  | .notInScope _ => none

end Sys2Proof
end

