-- ==== Sys2Proof/Machine/Fetch.lean ====
section
/-!
DEFINITION. What a step does before an instruction executes: the configurations it does not admit
(`00_scope.md` R2, `60_exceptions.md` R106, R111), the fetch and its checks (`20_memory.md` R45, R52,
R62), the illegal-state check and the decode (`60_exceptions.md` R97, R98, R100).
-/

namespace Sys2Proof.Machine

/-- What a step finds at the pc: an instruction to execute, an exception to take, or a refusal. -/
inductive Fetched where
  | execute (i : Instr)
  | raise (e : SyncException)
  | refuse (r : Refusal)
deriving DecidableEq, Repr

/-- Why the model does not admit a step from this state at all, if it does not: AArch32 state (R2),
Debug state, software step, breakpoints and watchpoints (R111), a pending asynchronous exception
(R106). -/
def notAdmitted (s : State) : Option Refusal :=
  if s.pstate.nRW then some .aarch32State
  else if s.dbg.halted then some .debugState
  else if s.pstate.ss then some .softwareStep
  else if s.dbg.events then some .debugEvents
  else if s.hidden.irq || s.hidden.fiq || s.hidden.serror then some .pendingInterrupt
  else none

/-- The byte an instruction fetch reads: of the program text where it is held apart, else of memory
(R42, R62; entry 6). -/
def fetchByte (s : State) (a : Word) : Byte :=
  match ProgramText.lookup s.text a with
  | some u => u
  | none => Memory.read s.mem a

/-- The instruction word at the pc, little-endian whatever the data byte order (R45). -/
def fetchedWord (s : State) : InstrWord :=
  wordOfBytes (fetchByte s s.pc) (fetchByte s (s.pc + 1#64)) (fetchByte s (s.pc + 2#64))
    (fetchByte s (s.pc + 3#64))

/-- The four addresses of the word at the pc. -/
def wordAddresses (pc : Word) : List Word := [pc, pc + 1#64, pc + 2#64, pc + 3#64]

/-- What the word is, as a step treats it (R70, R98). -/
def decodedStep (w : InstrWord) : Fetched :=
  match decode w with
  | .instr i => .execute i
  | .reserved _ => .raise .undefinedInstruction
  | .notInScope why => .refuse (.notInScope why w)

/-- What a step finds at the pc, in the order of R100: pc alignment, fetch, illegal state, the word. -/
def fetchDecode (s : State) : Fetched :=
  match notAdmitted s with
  | some r => .refuse r
  | none =>
    if s.pc.toNat % 4 ≠ 0 then .raise (.pcAlignmentFault s.pc)
    else if !(wordAddresses s.pc).all (fun a => mayExecute s.platform s.pstate.el a) then
      .raise (.instructionAbort s.pc)
    else if (wordAddresses s.pc).any (fun a => isShared s.platform a) then
      .refuse (.codeWrittenByOthers s.pc)
    else if s.pstate.il then .raise .illegalState
    else decodedStep (fetchedWord s)

/-- The state with a word placed where the next fetch reads it, in memory and no longer hidden by the
program text (entry 5). -/
def placeWord (s : State) (w : InstrWord) : State :=
  s.setProgram (Memory.writeBytes s.mem s.pc (bytesOfWord w)) (ProgramText.erase s.text s.pc 4)

end Sys2Proof.Machine
end

