-- ==== Sys2Proof/Machine/Step.lean ====
section
/-!
DEFINITION. One step of the machine (`00_scope.md` R9): fetch, decode and execute, an exception taken by
its entry (entry 1).
-/

namespace Sys2Proof.Machine

/-- One step. -/
def step (s : State) : Host.Outcome State Fault Refusal :=
  match fetchDecode s with
  | .execute i => exec i s
  | .raise e => .next (takeSync e s)
  | .refuse r => .refused r

/-- `s` with the instruction of a row of the opcode table stored where `step` fetches next. -/
def State.withFetchWord (s : State) (nbits w : Nat) : State := placeWord s (tableWord nbits w)

end Sys2Proof.Machine
end

