-- ==== Sys2Proof/Machine/Outcome.lean ====
section
/-!
DEFINITION. The outcomes as the spec counts them, before an exception is entered: of one form, of one step
(`00_scope.md` R9) and of a run (`70_reset_and_hazards.md` R118). The machine's `step` takes the exception
of a fault and goes on (entry 1); here a fault stays a fault, and ends a run.
-/

namespace Sys2Proof.Machine

/-- The outcome of executing a form. -/
def formOutcome (i : Instr) (s : State) : SpecOutcome :=
  ld4Single i.elemSize i.post i.first i.base i.lane s

/-- The outcome of one step (R9). -/
def stepOutcome (s : State) : SpecOutcome :=
  match fetchDecode s with
  | .execute i => formOutcome i s
  | .raise e => .fault e s
  | .refuse r => .refused r

/-- The outcome of a run of `k` words from the pc (R118): `Done` after `k` steps that each returned
`Next`; the first `Fault` or `Refused` step ends the run, never in a final state. -/
def runWords : Nat → State → SpecOutcome
  | 0, s => .next s
  | k + 1, s =>
    match stepOutcome s with
    | .next s' => runWords k s'
    | .fault e t => .fault e t
    | .refused r => .refused r

end Sys2Proof.Machine
end

