-- ==== Sys2Proof/Safety.lean ====
section
/-!
DEFINITION. The terms the claims are stated in: when an LD4 may execute (`70_reset_and_hazards.md` R114),
what it has then done (`40_ld4_single_structure.md` R78), what an exception entry has done
(`60_exceptions.md` R102), the invariant of a step, and a run (R118). These definitions restate the spec
bit by bit and byte by byte; they use the machine's operations only to read a state.
-/

namespace Sys2Proof.Safety

open Sys2Proof.Machine

/-! ### When a step reaches its instruction -/

/-- The step is one this machine admits: AArch64 state (R2), no Debug state, software step, breakpoint or
watchpoint (`60_exceptions.md` R111), no pending asynchronous exception (R106). -/
abbrev Admitted (s : State) : Prop :=
  s.pstate.nRW = false ∧ s.dbg.halted = false ∧ s.pstate.ss = false ∧ s.dbg.events = false ∧
    s.hidden.irq = false ∧ s.hidden.fiq = false ∧ s.hidden.serror = false

/-- The four bytes at the pc may be fetched at the current level (`20_memory.md` R52). -/
abbrev CodeExecutable (s : State) : Prop :=
  ∀ k, k < 4 → mayExecute s.platform s.pstate.el (s.pc + BitVec.ofNat 64 k) = true

/-- No other observer may write the four bytes at the pc (`20_memory.md` R62). -/
abbrev CodeUnshared (s : State) : Prop :=
  ∀ k, k < 4 → isShared s.platform (s.pc + BitVec.ofNat 64 k) = false

/-- The word at the pc can be fetched and is attempted: the checks above what the word is (R100, 1 to
3) pass. -/
abbrev FetchReady (s : State) : Prop :=
  Admitted s ∧ s.pc.toNat % 4 = 0 ∧ CodeExecutable s ∧ CodeUnshared s ∧ s.pstate.il = false

/-- The four bytes at the pc are those of the word, the least significant first (`20_memory.md` R45). -/
abbrev WordAt (s : State) (w : InstrWord) : Prop :=
  ∀ k, k < 4 → fetchByte s (s.pc + BitVec.ofNat 64 k) = w.extractLsb' (8 * k) 8

/-! ### When an LD4 may execute -/

/-- The settings under which `CheckSIMDEnabled()` of R99 returns: Advanced SIMD is there,
`HCR_EL2.E2H = 0`, and none of the three controls that applies traps. -/
abbrev SimdEnabled (s : State) : Prop :=
  s.platform.advSimd = true ∧
  (s.platform.hasEl2 = true → s.e2h = false) ∧
  (s.pstate.el = .el0 → s.fpen = 0b11#2) ∧
  (s.pstate.el = .el1 → s.fpen = 0b01#2 ∨ s.fpen = 0b11#2) ∧
  (s.platform.hasEl2 = true → s.secure = false → s.pstate.el ≠ .el3 → s.tfpEl2 = false) ∧
  (s.platform.hasEl3 = true → s.tfpEl3 = false)

/-- The value of the base operand: `X[n]`, or `SP` (R79). -/
def baseValue (s : State) : XSp → Word
  | .x n => s.readX n
  | .sp => s.readSp

/-- `CheckSPAlignment()` of R49 passes: the base is not SP, or SP is a multiple of 16. -/
abbrev SpAligned (s : State) (n : XSp) : Prop := n = .sp → s.readSp.toNat % 16 = 0

/-- The alignment check of R48 passes. -/
abbrev DataAligned (s : State) (base : Word) (sz : ElemSize) : Prop :=
  s.alignCheck = true → base.toNat % elemBytes sz = 0

/-- The level may read byte `k` of the structure at `base` (R50). -/
abbrev ByteReadable (s : State) (base : Word) (k : Nat) : Prop :=
  mayRead s.platform s.pstate.el (base + BitVec.ofNat 64 k) = true

/-- Byte `k` of the structure at `base` is a location with read side effects (R51). -/
abbrev ByteDevice (s : State) (base : Word) (k : Nat) : Prop :=
  isDevice s.platform (base + BitVec.ofNat 64 k) = true

/-- Every byte of the structure is readable ordinary memory (R50, R51). -/
abbrev StructureReadable (s : State) (base : Word) (sz : ElemSize) : Prop :=
  ∀ k, k < 4 * elemBytes sz → ByteReadable s base k ∧ ¬ByteDevice s base k

/-- Everything R82 lists lets the LD4 through. -/
abbrev LoadReady (s : State) (n : XSp) (sz : ElemSize) : Prop :=
  SimdEnabled s ∧ SpAligned s n ∧ DataAligned s (baseValue s n) sz ∧
    StructureReadable s (baseValue s n) sz

/-! ### What an LD4 has done -/

/-- Register `k` of the list that starts with `Vt`: `V[(t+k) mod 32]` (`30_encoding.md` R67). -/
def listReg (t : Fin 32) (k : Nat) : Fin 32 := ⟨(t.val + k) % 32, Nat.mod_lt _ (by decide)⟩

/-- Byte `b` of lane `index`: bits `[index*esize + 8b + 7 : index*esize + 8b]` (R22). -/
def laneByte (v : VWord) (index : Nat) (sz : ElemSize) (b : Nat) : Byte :=
  v.extractLsb' (8 * (index * elemBytes sz + b)) 8

/-- The address of the byte that becomes byte `b` of element `k`: little-endian `base + k*ebytes + b`
(R43), big-endian with the bytes of the element reversed (R44). -/
def sourceAddress (s : State) (base : Word) (sz : ElemSize) (k b : Nat) : Word :=
  base + BitVec.ofNat 64
    (k * elemBytes sz + if s.bigEndianData then elemBytes sz - 1 - b else b)

/-- Bit `j` of a register lies in lane `index` (R22). -/
abbrev InLane (index : Nat) (sz : ElemSize) (j : Nat) : Prop :=
  index * elemBits sz ≤ j ∧ j < index * elemBits sz + elemBits sz

/-- Outside lane `index` of the four listed registers, no bit of a vector register has changed (R81). -/
def OtherBitsKept (s s' : State) (t : Fin 32) (index : Nat) (sz : ElemSize) : Prop :=
  (∀ k, k < 4 → ∀ j, j < 128 → ¬InLane index sz j →
    (s'.readV (listReg t k)).getLsbD j = (s.readV (listReg t k)).getLsbD j) ∧
  (∀ r, (∀ k, k < 4 → r ≠ listReg t k) → s'.readV r = s.readV r)

/-- Lane `index` of the four listed registers holds the four elements of the structure at `base`, and
no other bit of a vector register has changed (R78, R81). -/
def StructureLoaded (s s' : State) (t : Fin 32) (index : Nat) (sz : ElemSize) (base : Word) : Prop :=
  (∀ k, k < 4 → ∀ b, b < elemBytes sz →
    laneByte (s'.readV (listReg t k)) index sz b = s.dataByte (sourceAddress s base sz k b)) ∧
  OtherBitsKept s s' t index sz

/-- The level whose stack pointer `SP` names: EL0 when `PSTATE.SPSel` is 0, else the current one (R17). -/
def selectedStack (s : State) : EL := if s.pstate.spSel then s.pstate.el else .el0

/-- No general-purpose register and no stack pointer has changed. -/
def BaseKept (s s' : State) : Prop :=
  (∀ j, s'.readX j = s.readX j) ∧ ∀ l, s'.spAt l = s.spAt l

/-- The base register holds `w`; every other general-purpose register and stack pointer is as before. -/
def BaseWritten (s s' : State) (n : XSp) (w : Word) : Prop :=
  match n with
  | .x i =>
    (∀ j, s'.readX j = if j = i then w else s.readX j) ∧ ∀ l, s'.spAt l = s.spAt l
  | .sp =>
    (∀ j, s'.readX j = s.readX j) ∧
      ∀ l, s'.spAt l = if l = selectedStack s then w else s.spAt l

/-- The exception registers of a level, its VBAR and its SCTLR are as before. -/
def BankKept (s s' : State) (x : TargetEl) : Prop :=
  (s'.bank x).elr = (s.bank x).elr ∧ (s'.bank x).spsr = (s.bank x).spsr ∧
  (s'.bank x).esr = (s.bank x).esr ∧ (s'.bank x).far = (s.bank x).far ∧
  (s'.bank x).vbar = (s.bank x).vbar ∧ (s'.bank x).sctlr = (s.bank x).sctlr

/-- What no step of this machine ever writes: the trap and configuration registers, FPCR and FPSR, the
debug registers, the hidden state, memory, program text and the platform (R37, R116(c)). -/
def ConfigurationKept (s s' : State) : Prop :=
  s'.sys = s.sys ∧ s'.fp = s.fp ∧ s'.dbg = s.dbg ∧ s'.hidden = s.hidden ∧
  (∀ a, Memory.read s'.mem a = Memory.read s.mem a) ∧ s'.mem = s.mem ∧ s'.text = s.text ∧
  s'.platform = s.platform

/-- Beside vector registers, base and pc, an LD4 that completes changes nothing: PSTATE with all its
flags, the exception registers and `ConfigurationKept` (R37, R80). -/
def RestKept (s s' : State) : Prop :=
  s'.pstate = s.pstate ∧ (∀ x, BankKept s s' x) ∧ ConfigurationKept s s'

/-- An LD4 without write-back has completed (R78). -/
def LoadedNoOffset (s s' : State) (t : Fin 32) (n : XSp) (index : Nat) (sz : ElemSize) : Prop :=
  StructureLoaded s s' t index sz (baseValue s n) ∧ BaseKept s s' ∧
    s'.pc = s.pc + 4#64 ∧ RestKept s s'

/-- An LD4 with write-back has completed: the base register holds the base plus the offset (R75, R78). -/
def LoadedPostIndex (s s' : State) (t : Fin 32) (n : XSp) (index : Nat) (sz : ElemSize)
    (offset : Word) : Prop :=
  StructureLoaded s s' t index sz (baseValue s n) ∧ BaseWritten s s' n (baseValue s n + offset) ∧
    s'.pc = s.pc + 4#64 ∧ RestKept s s'

/-! ### What an exception has done -/

/-- The state at a Data Abort of an LD4, before the entry: only bits of the four destination lanes may
differ from the state before (R103). -/
def OnlyLanesDiffer (s s' : State) (t : Fin 32) (index : Nat) (sz : ElemSize) : Prop :=
  s' = { s with v := s'.v } ∧ OtherBitsKept s s' t index sz

/-- A saved status shows a PSTATE in every bit R29 lists: N, Z, C, V in bits 31:28, SS bit 21, IL bit 20,
D, A, I, F in bits 9:6, the register width bit 4, the level in bits 3:2, bit 1 zero, SPSel bit 0. -/
def SpsrShows (r : BitVec 32) (p : Pstate) : Prop :=
  r.getLsbD 31 = p.n ∧ r.getLsbD 30 = p.z ∧ r.getLsbD 29 = p.c ∧ r.getLsbD 28 = p.v ∧
  r.getLsbD 21 = p.ss ∧ r.getLsbD 20 = p.il ∧
  r.getLsbD 9 = p.d ∧ r.getLsbD 8 = p.a ∧ r.getLsbD 7 = p.i ∧ r.getLsbD 6 = p.f ∧
  r.getLsbD 4 = p.nRW ∧ (r.extractLsb' 2 2).toNat = elRank p.el ∧ r.getLsbD 1 = false ∧
  r.getLsbD 0 = p.spSel

/-- CPACR_EL1 written, as a handler does it with `MSR` (`60_exceptions.md` R104, R107). -/
def withCpacr (s : State) (c : BitVec 32) : State := { s with sys := { s.sys with cpacrEl1 := c } }

/-- The general-purpose registers, all stack pointers, the vector registers and everything of
`ConfigurationKept` are as before: what an exception entry leaves alone (R102). -/
def EntryKeeps (s s' : State) : Prop :=
  (∀ j, s'.readX j = s.readX j) ∧ (∀ l, s'.spAt l = s.spAt l) ∧
    (∀ r, s'.readV r = s.readV r) ∧ ConfigurationKept s s'

/-! ### The invariant -/

/-- The current level is implemented, EL0 uses SP_EL0 (R17), EL2 is Non-secure (R27). -/
abbrev LegalMode (s : State) : Prop :=
  haveEl s.platform s.pstate.el = true ∧ (s.pstate.el = .el0 → s.pstate.spSel = false) ∧
    (s.pstate.el = .el2 → s.secure = false)

/-- Memory and program text have their canonical form, the mode is legal, and the pc and the vector
bases are word aligned. -/
abbrev Inv (s : State) : Prop :=
  Memory.wf s.mem = true ∧ ProgramText.wf s.text = true ∧ LegalMode s ∧
    s.pc.toNat % 4 = 0 ∧ s.bank1.vbar.toNat % 4 = 0 ∧ s.bank2.vbar.toNat % 4 = 0 ∧
    s.bank3.vbar.toNat % 4 = 0

/-! ### Runs -/

/-- The step completes an instruction, outcome (a) of `00_scope.md` R9: the word at the pc is a form,
everything R82 lists lets it through, and the step answers the next state. The entry of an exception is a
next state of `step` too, and is none of these. -/
def Completes (s s' : State) : Prop :=
  ∃ i : Instr, fetchDecode s = .execute i ∧ LoadReady s i.base i.elemSize ∧ step s = .next s'

/-- `k` steps, each of which completes an instruction: the run of R118 that ends with `Done`, and not one
in which a step faulted or was refused. -/
inductive CompletesRun : Nat → State → State → Prop where
  | done (s : State) : CompletesRun 0 s s
  | step {k : Nat} {s s' s'' : State} (first : Completes s s') (rest : CompletesRun k s' s'') :
      CompletesRun (k + 1) s s''

end Sys2Proof.Safety
end

