-- ==== Sys2Proof/Certificates/Slice0/Obligations.lean ====
section
/-!
DEFINITION. The statements for the provers. Each docstring names the rule of the spec it formalises.
-/

open Sys2Proof Sys2Proof.Machine Sys2Proof.Safety

/-! ### Encoding -/

/-- Decoding the word of a well-formed instruction gives the instruction back, for all twelve forms and
every operand value (`30_encoding.md` R65 to R70). -/
def Obligations.DecodeInvertsEncode : Prop :=
  ∀ i : Instr, i.wellFormed = true → decode (encode i) = .instr i

/-- A word that decodes to an instruction is the one word that encodes it, and the instruction is well
formed (`30_encoding.md` R65 to R70). -/
def Obligations.EncodeInvertsDecode : Prop :=
  ∀ (w : InstrWord) (i : Instr), decode w = .instr i → i.wellFormed = true ∧ encode i = w

/-- A word is a form of the instruction exactly when it has the form's match under the form's mask and,
for the register forms, `Rm` is not 31 (`30_encoding.md` R69). -/
def Obligations.OpcodeTableSelectsTheForms : Prop :=
  ∀ w : InstrWord,
    ((∃ t n k, decode w = .instr (.ld4B t n k)) ↔ w &&& 0xBFFFE000#32 = 0x0D602000#32) ∧
    ((∃ t n k, decode w = .instr (.ld4H t n k)) ↔ w &&& 0xBFFFE400#32 = 0x0D606000#32) ∧
    ((∃ t n k, decode w = .instr (.ld4S t n k)) ↔ w &&& 0xBFFFEC00#32 = 0x0D60A000#32) ∧
    ((∃ t n k, decode w = .instr (.ld4D t n k)) ↔ w &&& 0xBFFFFC00#32 = 0x0D60A400#32) ∧
    ((∃ t n k, decode w = .instr (.ld4BImm t n k)) ↔ w &&& 0xBFFFE000#32 = 0x0DFF2000#32) ∧
    ((∃ t n k m, decode w = .instr (.ld4BReg t n k m)) ↔
      w &&& 0xBFE0E000#32 = 0x0DE02000#32 ∧ w.extractLsb' 16 5 ≠ 31#5) ∧
    ((∃ t n k, decode w = .instr (.ld4HImm t n k)) ↔ w &&& 0xBFFFE400#32 = 0x0DFF6000#32) ∧
    ((∃ t n k m, decode w = .instr (.ld4HReg t n k m)) ↔
      w &&& 0xBFE0E400#32 = 0x0DE06000#32 ∧ w.extractLsb' 16 5 ≠ 31#5) ∧
    ((∃ t n k, decode w = .instr (.ld4SImm t n k)) ↔ w &&& 0xBFFFEC00#32 = 0x0DFFA000#32) ∧
    ((∃ t n k m, decode w = .instr (.ld4SReg t n k m)) ↔
      w &&& 0xBFE0EC00#32 = 0x0DE0A000#32 ∧ w.extractLsb' 16 5 ≠ 31#5) ∧
    ((∃ t n k, decode w = .instr (.ld4DImm t n k)) ↔ w &&& 0xBFFFFC00#32 = 0x0DFFA400#32) ∧
    ((∃ t n k m, decode w = .instr (.ld4DReg t n k m)) ↔
      w &&& 0xBFE0FC00#32 = 0x0DE0A400#32 ∧ w.extractLsb' 16 5 ≠ 31#5)

/-- `decode(w)` of `30_encoding.md` R70, line by line, and what a step does with the two classes of words
that are no form: a reserved word raises Undefined Instruction, a word not in scope is refused. The base
field 31 is SP; the post-index operand is absent for `P = 0`, `Xm` for `Rm` up to 30, else the
immediate. -/
def Obligations.DecodeFollowsTheAlgorithm : Prop :=
  (∀ w : InstrWord,
    let q := w.extractLsb' 30 1
    let p := w.extractLsb' 23 1
    let rm := w.extractLsb' 16 5
    let s := w.extractLsb' 12 1
    let size := w.extractLsb' 10 2
    let rn := w.extractLsb' 5 5
    let loadFour := w.getLsbD 22 = true ∧ w.getLsbD 21 = true ∧ w.getLsbD 13 = true
    let inClass := w.getLsbD 31 = false ∧ w.extractLsb' 24 6 = 0b001101#6
    let form (sz : ElemSize) (index : Nat) : Prop :=
      ∃ post n, decode w = .instr (Instr.ofOperands sz post ⟨w.toNat % 32, by omega⟩ n index) ∧
        (n = .sp ↔ rn = 31#5) ∧ (∀ j, n = .x j ↔ j.val = rn.toNat) ∧
        (post = .none ↔ p = 0#1) ∧ (post = .imm ↔ p = 1#1 ∧ rm = 31#5) ∧
        (∀ m, post = .reg m ↔ p = 1#1 ∧ m.val = rm.toNat)
    (¬inClass → ∃ why, decode w = .notInScope why) ∧
    (inClass → ¬loadFour → ∃ why, decode w = .notInScope why) ∧
    (inClass → loadFour → p = 0#1 → rm ≠ 0#5 → ∃ why, decode w = .reserved why) ∧
    (inClass → loadFour → (p = 1#1 ∨ rm = 0#5) →
      (w.extractLsb' 14 2 = 0b00#2 → form .b (q ++ s ++ size).toNat) ∧
      (w.extractLsb' 14 2 = 0b01#2 → w.getLsbD 10 = true → ∃ why, decode w = .reserved why) ∧
      (w.extractLsb' 14 2 = 0b01#2 → w.getLsbD 10 = false →
        form .h (q ++ s ++ w.extractLsb' 11 1).toNat) ∧
      (w.extractLsb' 14 2 = 0b10#2 → w.getLsbD 11 = true → ∃ why, decode w = .reserved why) ∧
      (w.extractLsb' 14 2 = 0b10#2 → size = 0b00#2 → form .s (q ++ s).toNat) ∧
      (w.extractLsb' 14 2 = 0b10#2 → size = 0b01#2 → s = 1#1 → ∃ why, decode w = .reserved why) ∧
      (w.extractLsb' 14 2 = 0b10#2 → size = 0b01#2 → s = 0#1 → form .d q.toNat) ∧
      (w.extractLsb' 14 2 = 0b11#2 → s = 1#1 → ∃ why, decode w = .reserved why) ∧
      (w.extractLsb' 14 2 = 0b11#2 → s = 0#1 → decode w = .notInScope .ld4r))) ∧
  (∀ (st : State) (w : InstrWord), FetchReady st → WordAt st w →
    (∀ why, decode w = .reserved why → step st = .next (takeSync .undefinedInstruction st)) ∧
    (∀ why, decode w = .notInScope why → step st = .refused (.notInScope why w)))

/-- Words written out in `95_test_vectors.md`, Parts 1, 2 and 6, decode to what they stand for. -/
def Obligations.WrittenOutWordsDecode : Prop :=
  decode 0x0D602C00#32 = .instr (.ld4B 0 (.x 0) 3) ∧
  decode 0x4D6079E4#32 = .instr (.ld4H 4 (.x 15) 7) ∧
  decode 0x4D60B3E0#32 = .instr (.ld4S 0 .sp 3) ∧
  decode 0x4D60A45D#32 = .instr (.ld4D 29 (.x 2) 1) ∧
  decode 0x0DFF73FE#32 = .instr (.ld4HImm 30 .sp 2) ∧
  decode 0x4DFEA01F#32 = .instr (.ld4SReg 31 (.x 0) 2 30) ∧
  decode 0x0DE0A400#32 = .instr (.ld4DReg 0 (.x 0) 0 0) ∧
  decode 0x0D612C00#32 = .reserved .offsetWithoutPostIndex ∧
  decode 0x0D60F000#32 = .reserved .replicateWithS ∧
  decode 0x0D60E000#32 = .notInScope .ld4r ∧
  decode 0xD503201F#32 = .notInScope .outsideClass

/-! ### The step -/

/-- When the bytes at the pc are those of a word that decodes to an instruction, and the checks above it
pass, the step is the execution of that instruction (`00_scope.md` R9, R12). -/
def Obligations.StepRunsTheDecodedInstruction : Prop :=
  ∀ (s : State) (w : InstrWord) (i : Instr), FetchReady s → WordAt s w → decode w = .instr i →
    step s = exec i s

/-- The fetch checks of `20_memory.md` R52, the pc's alignment first: a misaligned pc and a word that may
not be fetched end in their exceptions, whatever the bytes there are; an LD4 that completes leaves an
aligned pc aligned. (R52 leaves `Executable` open; that it fails at every location
with read side effects, so that a fetch there aborts, is the model's choice, entry 31.) -/
def Obligations.FetchChecksThePc : Prop :=
  (∀ s : State, Admitted s → s.pc.toNat % 4 ≠ 0 → step s = .next (takeSync (.pcAlignmentFault s.pc) s)) ∧
  (∀ s : State, Admitted s → s.pc.toNat % 4 = 0 → ¬CodeExecutable s →
    step s = .next (takeSync (.instructionAbort s.pc) s)) ∧
  (∀ (i : Instr) (s : State), LoadReady s i.base i.elemSize → s.pc.toNat % 4 = 0 →
    ∃ s', exec i s = .next s' ∧ s'.pc = s.pc + 4#64 ∧ s'.pc.toNat % 4 = 0)

/-- With `PSTATE.IL = 1` a fetchable word is not decoded: the illegal-state exception is taken
(`60_exceptions.md` R97, R100 item 3). -/
def Obligations.IllegalStateIsTakenBeforeDecoding : Prop :=
  ∀ s : State, Admitted s → s.pc.toNat % 4 = 0 → CodeExecutable s → CodeUnshared s →
    s.pstate.il = true → step s = .next (takeSync .illegalState s)

/-- The configurations the spec does not admit are refused, each under its name (`00_scope.md` R2,
`20_memory.md` R62, `60_exceptions.md` R106, R111). The order of the names is the model's choice
(entries 10, 18, 19, 20). -/
def Obligations.UnadmittedStepsAreRefused : Prop :=
  ∀ s : State,
    (s.pstate.nRW = true → step s = .refused .aarch32State) ∧
    (s.pstate.nRW = false → s.dbg.halted = true → step s = .refused .debugState) ∧
    (s.pstate.nRW = false → s.dbg.halted = false → s.pstate.ss = true →
      step s = .refused .softwareStep) ∧
    (s.pstate.nRW = false → s.dbg.halted = false → s.pstate.ss = false → s.dbg.events = true →
      step s = .refused .debugEvents) ∧
    (s.pstate.nRW = false → s.dbg.halted = false → s.pstate.ss = false → s.dbg.events = false →
      (s.hidden.irq = true ∨ s.hidden.fiq = true ∨ s.hidden.serror = true) →
      step s = .refused .pendingInterrupt) ∧
    (Admitted s → s.pc.toNat % 4 = 0 → CodeExecutable s → ¬CodeUnshared s →
      step s = .refused (.codeWrittenByOthers s.pc))

/-- The instruction word is read little-endian whatever the data byte order, and in little-endian a
four-byte data read and four one-byte reads of the same place agree (`20_memory.md` R45). -/
def Obligations.InstructionFetchIsLittleEndian : Prop :=
  (∀ (s : State) (k : Nat), k < 4 →
    (fetchedWord s).extractLsb' (8 * k) 8 = fetchByte s (s.pc + BitVec.ofNat 64 k)) ∧
  (∀ (s : State) (a : Word) (k : Nat), s.bigEndianData = false → k < 4 →
    (elementValue s a .s).extractLsb' (8 * k) 8 =
      (elementValue s (a + BitVec.ofNat 64 k) .b).setWidth 8)

/-- A word placed at the pc from outside is the word the next fetch reads, and no other byte of memory
changes: the load that `withFetchWord` stands for (the model's choice, entry 5). -/
def Obligations.PlacedWordIsFetched : Prop :=
  ∀ (s : State) (w : Nat), Memory.wf s.mem = true → w < 2 ^ 32 →
    WordAt (s.withFetchWord 32 w) (BitVec.ofNat 32 w) ∧
    (∀ a, (∀ k, k < 4 → a ≠ s.pc + BitVec.ofNat 64 k) →
      Memory.read (s.withFetchWord 32 w).mem a = Memory.read s.mem a) ∧
    Memory.wf (s.withFetchWord 32 w).mem = true

/-! ### The instructions -/

/-- The four forms without offset complete: lane `index` of the four listed registers is loaded from the
structure at the base, every other bit and register is kept, the pc advances by 4
(`40_ld4_single_structure.md` R84 to R87, R78, R80, R81). -/
def Obligations.NoOffsetFormsLoadTheStructure : Prop :=
  ∀ (t : Fin 32) (n : XSp) (index : Nat) (s : State),
    (index < 16 → LoadReady s n .b →
      ∃ s', exec (.ld4B t n index) s = .next s' ∧ LoadedNoOffset s s' t n index .b) ∧
    (index < 8 → LoadReady s n .h →
      ∃ s', exec (.ld4H t n index) s = .next s' ∧ LoadedNoOffset s s' t n index .h) ∧
    (index < 4 → LoadReady s n .s →
      ∃ s', exec (.ld4S t n index) s = .next s' ∧ LoadedNoOffset s s' t n index .s) ∧
    (index < 2 → LoadReady s n .d →
      ∃ s', exec (.ld4D t n index) s = .next s' ∧ LoadedNoOffset s s' t n index .d)

/-- The four immediate post-index forms complete: as the forms without offset, and the base register
holds the base plus 4, 8, 16 or 32 (`40_ld4_single_structure.md` R88, R90, R92, R94, R78, R83(g)). -/
def Obligations.ImmediateFormsAdvanceTheBase : Prop :=
  ∀ (t : Fin 32) (n : XSp) (index : Nat) (s : State),
    (index < 16 → LoadReady s n .b →
      ∃ s', exec (.ld4BImm t n index) s = .next s' ∧ LoadedPostIndex s s' t n index .b 4#64) ∧
    (index < 8 → LoadReady s n .h →
      ∃ s', exec (.ld4HImm t n index) s = .next s' ∧ LoadedPostIndex s s' t n index .h 8#64) ∧
    (index < 4 → LoadReady s n .s →
      ∃ s', exec (.ld4SImm t n index) s = .next s' ∧ LoadedPostIndex s s' t n index .s 16#64) ∧
    (index < 2 → LoadReady s n .d →
      ∃ s', exec (.ld4DImm t n index) s = .next s' ∧ LoadedPostIndex s s' t n index .d 32#64)

/-- The four register post-index forms complete: the base register holds the base plus the value `X[m]`
had before the instruction (`40_ld4_single_structure.md` R89, R91, R93, R95, R78). -/
def Obligations.RegisterFormsAddTheOffset : Prop :=
  ∀ (t : Fin 32) (n : XSp) (index : Nat) (m : Fin 31) (s : State),
    (index < 16 → LoadReady s n .b →
      ∃ s', exec (.ld4BReg t n index m) s = .next s' ∧
        LoadedPostIndex s s' t n index .b (s.readX m)) ∧
    (index < 8 → LoadReady s n .h →
      ∃ s', exec (.ld4HReg t n index m) s = .next s' ∧
        LoadedPostIndex s s' t n index .h (s.readX m)) ∧
    (index < 4 → LoadReady s n .s →
      ∃ s', exec (.ld4SReg t n index m) s = .next s' ∧
        LoadedPostIndex s s' t n index .s (s.readX m)) ∧
    (index < 2 → LoadReady s n .d →
      ∃ s', exec (.ld4DReg t n index m) s = .next s' ∧
        LoadedPostIndex s s' t n index .d (s.readX m))

/-- The corner cases of `40_ld4_single_structure.md` R83 that concern registers: (a) the list wraps from
V31 to V0; (c) with `m = n` the base register doubles and the load used the old value; (e) an offset that
is the two's complement of `d` steps the base back by `d`. -/
def Obligations.RegisterCornerCases : Prop :=
  ([0, 1, 2, 3].map (listReg 29) = [29, 30, 31, 0] ∧ [0, 1, 2, 3].map (listReg 30) = [30, 31, 0, 1] ∧
    [0, 1, 2, 3].map (listReg 31) = [31, 0, 1, 2]) ∧
  (∀ (i : Instr) (n : Fin 31) (s : State), i.wellFormed = true → i.base = .x n → i.post = .reg n →
    LoadReady s i.base i.elemSize →
    ∃ s', exec i s = .next s' ∧ s'.readX n = s.readX n + s.readX n ∧
      StructureLoaded s s' i.first i.lane i.elemSize (s.readX n)) ∧
  (∀ (i : Instr) (n m : Fin 31) (d : Word) (s : State), i.base = .x n → i.post = .reg m →
    s.readX m = -d → LoadReady s i.base i.elemSize →
    ∃ s', exec i s = .next s' ∧ s'.readX n = s.readX n - d)

/-! ### The exceptions of an LD4 -/

/-- `CheckSIMDEnabled()` of `60_exceptions.md` R99 for every form: EL1's control first, re-routed to EL2 as
Undefined Instruction in the one `TGE` case, then EL2's, then EL3's; nothing has changed when the trap is
taken; and where no control traps the check returns. -/
def Obligations.SimdTrapDecision : Prop :=
  ∀ (i : Instr) (s : State), s.platform.advSimd = true → (s.platform.hasEl2 = true → s.e2h = false) →
    let el2Here := s.platform.hasEl2 = true ∧ s.secure = false
    let disabled := (s.pstate.el = .el0 ∧ s.fpen ≠ 0b11#2) ∨
      (s.pstate.el = .el1 ∧ (s.fpen = 0b00#2 ∨ s.fpen = 0b10#2))
    let rerouted := s.pstate.el = .el0 ∧ el2Here ∧ s.tge = true
    let trapsToEl2 := el2Here ∧ s.pstate.el ≠ .el3 ∧ s.tfpEl2 = true
    let trapsToEl3 := s.platform.hasEl3 = true ∧ s.tfpEl3 = true
    (disabled → rerouted → exceptionTarget .undefinedInstruction s = .el2 ∧
      exec i s = .next (takeSync .undefinedInstruction s)) ∧
    (disabled → ¬rerouted → exec i s = .next (takeSync (.simdAccessTrap .el1) s)) ∧
    (¬disabled → trapsToEl2 → exec i s = .next (takeSync (.simdAccessTrap .el2) s)) ∧
    (¬disabled → ¬trapsToEl2 → trapsToEl3 → exec i s = .next (takeSync (.simdAccessTrap .el3) s)) ∧
    (¬disabled → ¬trapsToEl2 → ¬trapsToEl3 → checkSimdEnabled s = .ok ())

/-- Without Advanced SIMD every LD4 is UNDEFINED (`60_exceptions.md` R98), and with `HCR_EL2.E2H = 1` on an
implementation with EL2 every LD4 is refused (`92_eei_decisions.md` D4; the model's reading of D2 and D4,
entries 13 and 27). -/
def Obligations.MissingSimdAndHostExtensions : Prop :=
  ∀ (i : Instr) (s : State),
    (s.platform.advSimd = false → exec i s = .next (takeSync .undefinedInstruction s)) ∧
    (s.platform.advSimd = true → s.platform.hasEl2 = true → s.e2h = true →
      exec i s = .refused .hostExtensionsEnabled)

/-- `CheckSPAlignment()` of `20_memory.md` R49: a base of SP that is no multiple of 16 ends every form in
the SP alignment fault with nothing changed, whatever the element size and `ALIGN_CHECK` are; the check is
not made for a base of X0 to X30, and not on the value written back to SP. -/
def Obligations.SpAlignmentIsChecked : Prop :=
  (∀ (i : Instr) (s : State), SimdEnabled s → i.base = .sp → s.readSp.toNat % 16 ≠ 0 →
    exec i s = .next (takeSync .spAlignmentFault s)) ∧
  (∀ (i : Instr) (n : Fin 31) (s : State), SimdEnabled s → i.base = .x n →
    DataAligned s (s.readX n) i.elemSize → StructureReadable s (s.readX n) i.elemSize →
    ∃ s', exec i s = .next s' ∧ s'.pc = s.pc + 4#64) ∧
  (∀ (i : Instr) (s : State), LoadReady s i.base i.elemSize → i.base = .sp →
    ∃ s', exec i s = .next s' ∧
      (i.post = .imm → s'.readSp = s.readSp + BitVec.ofNat 64 (4 * elemBytes i.elemSize)) ∧
      (∀ m, i.post = .reg m → s'.readSp = s.readSp + s.readX m) ∧
      (i.post = .none → s'.readSp = s.readSp))

/-- With `ALIGN_CHECK`, a base that is no multiple of the element size ends a form in the alignment fault
at the base, whether or not the bytes are readable; no bit outside the four destination lanes has changed
(`20_memory.md` R47, R48, `60_exceptions.md` R103). A base is a multiple of the element size of the 8-bit
forms always. -/
def Obligations.MisalignedElementsAbort : Prop :=
  (∀ (i : Instr) (s : State), SimdEnabled s → SpAligned s i.base → s.alignCheck = true →
    (baseValue s i.base).toNat % elemBytes i.elemSize ≠ 0 →
    ∃ s₁, OnlyLanesDiffer s s₁ i.first i.lane i.elemSize ∧
      exec i s = .next (takeSync (.dataAbortAlignment (baseValue s i.base)) s₁)) ∧
  (∀ (s : State) (base : Word), DataAligned s base .b)

/-- The lowest byte of the structure that the level may not read is reported by the Data Abort that ends a
form, if no element before that byte's touches a device; there is no write-back and no bit outside the four
destination lanes has changed (`20_memory.md` R47, R50, `60_exceptions.md` R103). Where a byte of that same
element is a location with read side effects, R51 says that the access is refused, and that the Data Abort
comes first is the model's reading (entry 12). -/
def Obligations.UnreadableByteAborts : Prop :=
  ∀ (i : Instr) (s : State) (k : Nat), SimdEnabled s → SpAligned s i.base →
    DataAligned s (baseValue s i.base) i.elemSize → k < 4 * elemBytes i.elemSize →
    ¬ByteReadable s (baseValue s i.base) k → (∀ j, j < k → ByteReadable s (baseValue s i.base) j) →
    (∀ j, j < k / elemBytes i.elemSize * elemBytes i.elemSize →
      ¬ByteDevice s (baseValue s i.base) j) →
    ∃ s₁, OnlyLanesDiffer s s₁ i.first i.lane i.elemSize ∧
      exec i s = .next (takeSync (.dataAbortOther (baseValue s i.base + BitVec.ofNat 64 k)) s₁)

/-- A form whose lowest device byte lies in an element that is readable, with every byte before it, is
refused by that byte's address (`20_memory.md` R51, `92_eei_decisions.md` D10; the order of the two
conditions inside an element is the model's reading, entry 12). -/
def Obligations.DeviceMemoryIsRefused : Prop :=
  ∀ (i : Instr) (s : State) (k : Nat), SimdEnabled s → SpAligned s i.base →
    DataAligned s (baseValue s i.base) i.elemSize → k < 4 * elemBytes i.elemSize →
    ByteDevice s (baseValue s i.base) k → (∀ j, j < k → ¬ByteDevice s (baseValue s i.base) j) →
    (∀ j, j < k / elemBytes i.elemSize * elemBytes i.elemSize + elemBytes i.elemSize →
      ByteReadable s (baseValue s i.base) j) →
    exec i s = .refused (.deviceMemory (baseValue s i.base + BitVec.ofNat 64 k))

/-! ### Exception entry and return -/

/-- `TakeException` of `60_exceptions.md` R102: what the registers of the target level, PSTATE and the pc
hold after the entry (the saved status in every bit `10_state.md` R29 lists); flags, general-purpose
registers, stack pointers and vector registers are not changed, nor are the registers of another level. A synchronous exception is taken by this entry, with the
address of the instruction as the return address (and the model's counter advanced, entry 11). -/
def Obligations.ExceptionEntryFollowsTheRule : Prop :=
  (∀ (e : SyncException) (s : State), ∃ esr addr,
    takeSync e s = (takeException (exceptionTarget e s) .synchronous esr addr s.pc s).tick) ∧
  ∀ (x : TargetEl) (kind : VectorKind) (esr : BitVec 32) (addr : Option Word) (ret : Word) (s : State),
    let s' := takeException x kind esr addr ret s
    let b := s'.bank x
    let group : Word :=
      if elRank x.level > elRank s.pstate.el then 0x400#64
      else if s.pstate.spSel = false then 0x000#64 else 0x200#64
    let offset : Word :=
      group + match kind with
        | .synchronous => 0x000#64
        | .irq => 0x080#64
        | .fiq => 0x100#64
        | .serror => 0x180#64
    SpsrShows b.spsr s.pstate ∧ b.elr = ret ∧ b.esr = esr ∧
    b.far = (match addr with | some a => a | none => (s.bank x).far) ∧
    s'.pc = (s.bank x).vbar + offset ∧
    s'.pstate.el = x.level ∧ s'.pstate.nRW = false ∧ s'.pstate.spSel = true ∧
    s'.pstate.d = true ∧ s'.pstate.a = true ∧ s'.pstate.i = true ∧ s'.pstate.f = true ∧
    s'.pstate.ss = false ∧ s'.pstate.il = false ∧
    s'.pstate.n = s.pstate.n ∧ s'.pstate.z = s.pstate.z ∧ s'.pstate.c = s.pstate.c ∧
    s'.pstate.v = s.pstate.v ∧
    EntryKeeps s s' ∧ b.vbar = (s.bank x).vbar ∧ b.sctlr = (s.bank x).sctlr ∧
    (∀ y, y ≠ x → BankKept s s' y)

/-- `SPSR_ELx` as the entry writes it, bit by bit (`10_state.md` R29): the flags in bits 31:28, SS bit 21,
IL bit 20, D, A, I, F in bits 9:6, the register width in bit 4, the level in bits 3:2, SPSel in bit 0,
bit 1 zero; the bits R29 does not list, 27:22, 19:10 and 5, are 0 (the model's choice, entry 33); reading
that layout back into any PSTATE gives the one it came from (UAO and PAN, which have no place there, are
kept: the model's choice, entry 23); and it is what every entry saves. -/
def Obligations.SpsrHoldsThePstate : Prop :=
  (∀ p : Pstate,
    let r := spsrOfPstate p
    SpsrShows r p ∧
    r.extractLsb' 22 6 = 0#6 ∧ r.extractLsb' 10 10 = 0#10 ∧ r.getLsbD 5 = false ∧
    ∀ old : Pstate, old.uao = p.uao → old.pan = p.pan → pstateOfSpsr old r = p) ∧
  ∀ (x : TargetEl) (kind : VectorKind) (esr : BitVec 32) (addr : Option Word) (ret : Word) (s : State),
    ((takeException x kind esr addr ret s).bank x).spsr = spsrOfPstate s.pstate

/-- Which level takes an exception (`60_exceptions.md` R101): the SIMD trap its named level; every other
exception at EL0 goes to EL1, or to EL2 when EL2 is implemented, the PE is Non-secure and `TGE` is 1; at
EL1, EL2 and EL3 it stays. The target is never below the current level (for the SIMD trap: the level that
`CheckSIMDEnabled()` names), and is the level that the entry of R102 sets in PSTATE, with the old pc in its
ELR. `DataAbort_Other` is routed as the others, although R101 has a stage 2 abort taken to EL2 and an
external abort to EL3 when `SCR_EL3.EA` is 1; it distinguishes neither inside `DataAbort_Other`, and the
common routing is the model's reading (entry 24). -/
def Obligations.ExceptionRouting : Prop :=
  ∀ (e : SyncException) (s : State),
    (∀ x, e = .simdAccessTrap x → exceptionTarget e s = x) ∧
    ((∀ x, e ≠ .simdAccessTrap x) →
      (s.pstate.el = .el0 → s.platform.hasEl2 = true → s.secure = false → s.tge = true →
        exceptionTarget e s = .el2) ∧
      (s.pstate.el = .el0 → ¬(s.platform.hasEl2 = true ∧ s.secure = false ∧ s.tge = true) →
        exceptionTarget e s = .el1) ∧
      (s.pstate.el ≠ .el0 → (exceptionTarget e s).level = s.pstate.el)) ∧
    ((∀ x, e = .simdAccessTrap x → simdTrap s = some e) →
      elRank s.pstate.el ≤ elRank (exceptionTarget e s).level) ∧
    (takeSync e s).pstate.el = (exceptionTarget e s).level ∧
    ((takeSync e s).bank (exceptionTarget e s)).elr = s.pc

/-- What each exception writes to `ESR_ELx` and `FAR_ELx` of its target level (the table of
`60_exceptions.md` R97). The fault status bits are free values (entry 9): an instruction abort's 6 bits are any, a
data abort's are one of the listed kinds. Which level is the target of a data abort of another kind than
alignment is the model's reading (entry 24). -/
def Obligations.SyndromesAndFaultAddresses : Prop :=
  ∀ (s : State) (a : Word),
    let esr (e : SyncException) := ((takeSync e s).bank (exceptionTarget e s)).esr
    let far (e : SyncException) := ((takeSync e s).bank (exceptionTarget e s)).far
    let oldFar (e : SyncException) := (s.bank (exceptionTarget e s)).far
    let same (e : SyncException) := (exceptionTarget e s).level = s.pstate.el
    (esr (.pcAlignmentFault a) = 0x8A000000#32 ∧ far (.pcAlignmentFault a) = a) ∧
    ((∃ ifsc : BitVec 6, esr (.instructionAbort a) =
        (if same (.instructionAbort a) then 0x86000000#32 else 0x82000000#32) + ifsc.setWidth 32) ∧
      far (.instructionAbort a) = a) ∧
    (esr .illegalState = 0x3A000000#32 ∧ far .illegalState = oldFar .illegalState) ∧
    (esr .undefinedInstruction = 0x02000000#32 ∧
      far .undefinedInstruction = oldFar .undefinedInstruction) ∧
    (∀ x, esr (.simdAccessTrap x) = 0x1FE00000#32 ∧
      far (.simdAccessTrap x) = oldFar (.simdAccessTrap x)) ∧
    esr .spAlignmentFault = 0x9A000000#32 ∧
    (esr (.dataAbortAlignment a) =
        (if same (.dataAbortAlignment a) then 0x96000021#32 else 0x92000021#32) ∧
      far (.dataAbortAlignment a) = a) ∧
    ((∃ dfsc : BitVec 6, (dfsc.extractLsb' 2 4 = 0b0001#4 ∨ dfsc.extractLsb' 2 4 = 0b0010#4 ∨
          dfsc.extractLsb' 2 4 = 0b0011#4 ∨ dfsc = 0b010000#6) ∧
        esr (.dataAbortOther a) =
          (if same (.dataAbortOther a) then 0x96000000#32 else 0x92000000#32) + dfsc.setWidth 32) ∧
      far (.dataAbortOther a) = a)

/-- A return right after the entry of a synchronous exception, from a legal AArch64 mode to a level not
below it, restores PSTATE and the pc of the interrupted instruction and leaves general-purpose registers,
stack pointers, vector registers, configuration and memory as they were, and the exception registers, VBAR
and SCTLR of every level but the one that took the exception; of that level VBAR and SCTLR are as they were,
and ELR, SPSR, ESR and FAR hold what the entry wrote (`60_exceptions.md` R102, R104, `10_state.md` R29; UAO
and PAN are kept through both: the model's choice, entry 23). -/
def Obligations.ReturnUndoesTheEntry : Prop :=
  ∀ (e : SyncException) (s : State), LegalMode s → s.pstate.nRW = false →
    elRank s.pstate.el ≤ elRank (exceptionTarget e s).level →
    ∃ s', exceptionReturn (takeSync e s) = .next s' ∧ s'.pstate = s.pstate ∧ s'.pc = s.pc ∧
      EntryKeeps s s' ∧ (∀ y, y ≠ exceptionTarget e s → BankKept s s' y) ∧
      (s'.bank (exceptionTarget e s)).vbar = (s.bank (exceptionTarget e s)).vbar ∧
      (s'.bank (exceptionTarget e s)).sctlr = (s.bank (exceptionTarget e s)).sctlr ∧
      ∀ y, BankKept (takeSync e s) s' y

/-- The exception return of `60_exceptions.md` R104: undefined at EL0; with a legal AArch64 SPSR, PSTATE
is what the SPSR of the current level shows in the bits of `10_state.md` R29, and the pc is its ELR (UAO and
PAN, which have no bit there, are kept: the model's choice, entry 23). A return is illegal when `M[3:0]` names
none of the seven modes of `10_state.md` R29 (bit 1 set, or EL0 with SPSel 1), a level above the current
one or one that is not implemented, or EL2 while the state below EL3 is Secure; it sets `PSTATE.IL` and
keeps the level, SPSel and register width (what is illegal and what is kept are the model's choice, entry
22; that EL2 without EL3 is Non-secure is its reading, entry 17). Both kinds of return keep every
general-purpose, stack and vector register, the exception registers, VBAR and SCTLR of every level, the
configuration and memory. An SPSR that names AArch32 is refused (the model's reading of `00_scope.md` R2,
entry 20). -/
def Obligations.ExceptionReturnFollowsTheRule : Prop :=
  (∀ s : State, s.pstate.el = .el0 → exceptionReturn s = .next (takeSync .undefinedInstruction s)) ∧
  (∀ (s : State) (x : TargetEl), s.pstate.el = x.level →
    let r := (s.bank x).spsr
    let named := r.extractLsb' 2 2
    let illegal := r.getLsbD 1 = true ∨ (named = 0#2 ∧ r.getLsbD 0 = true) ∨
      elRank x.level < named.toNat ∨ haveEl s.platform (elOfBits named) = false ∨
      (named = 2#2 ∧ s.platform.hasEl3 = true ∧ s.sys.scrEl3.getLsbD 0 = false)
    (r.getLsbD 4 = true → exceptionReturn s = .refused .aarch32State) ∧
    (r.getLsbD 4 = false → ¬illegal →
      ∃ s', exceptionReturn s = .next s' ∧ s'.pc = (s.bank x).elr ∧ SpsrShows r s'.pstate ∧
        s'.pstate.uao = s.pstate.uao ∧ s'.pstate.pan = s.pstate.pan ∧
        elRank s'.pstate.el ≤ elRank s.pstate.el ∧ EntryKeeps s s' ∧ ∀ y, BankKept s s' y) ∧
    (r.getLsbD 4 = false → illegal →
      ∃ s', exceptionReturn s = .next s' ∧ s'.pc = (s.bank x).elr ∧ s'.pstate.il = true ∧
        s'.pstate.el = s.pstate.el ∧ s'.pstate.spSel = s.pstate.spSel ∧
        s'.pstate.nRW = s.pstate.nRW ∧ EntryKeeps s s' ∧ ∀ y, BankKept s s' y))

/-- A form trapped by `CPACR_EL1` runs again from the start once the handler has enabled access and
returned with ELR unchanged (`60_exceptions.md` R99, R104): whichever value of `FPEN` disables it, the trap
is taken to EL1, the return comes back to the same pc, PSTATE and general-purpose, stack and vector
registers, and the load then completes (that UAO and PAN come back too is the model's choice, entry 23). -/
def Obligations.TrappedLoadRunsAgainAfterReturn : Prop :=
  ∀ (i : Instr) (s : State) (c : BitVec 32), i.wellFormed = true → LegalMode s →
    s.pstate.nRW = false → LoadReady (withCpacr s c) i.base i.elemSize →
    ((s.pstate.el = .el0 ∧ s.fpen ≠ 0b11#2) ∨
      (s.pstate.el = .el1 ∧ (s.fpen = 0b00#2 ∨ s.fpen = 0b10#2))) →
    ¬(s.pstate.el = .el0 ∧ s.platform.hasEl2 = true ∧ s.secure = false ∧ s.tge = true) →
    ∃ s₁ s₂ s₃, exec i s = .next s₁ ∧ s₁.pstate.el = .el1 ∧
      exceptionReturn (withCpacr s₁ c) = .next s₂ ∧
      s₂.pc = s.pc ∧ s₂.pstate = s.pstate ∧ EntryKeeps (withCpacr s c) s₂ ∧
      exec i s₂ = .next s₃ ∧ s₃.pc = s.pc + 4#64 ∧
      StructureLoaded s₂ s₃ i.first i.lane i.elemSize (baseValue s i.base)

/-! ### Every step -/

/-- The invariant holds at reset (`Safety.Inv`; the memory and register contents are the model's choice,
entries 2 to 4). -/
def Obligations.ResetHasTheInvariant : Prop := Inv State.reset

/-- Every step keeps the invariant: canonical memory and program text, a legal mode, aligned pc and vector
bases (`10_state.md` R17, R18, R26, R27, `60_exceptions.md` R101, R102; the canonical form is the model's
choice, entry 4). -/
def Obligations.EveryStepKeepsTheInvariant : Prop :=
  ∀ s s' : State, Inv s → step s = .next s' → Inv s'

/-- No step writes memory, program text, a trap or configuration register, FPCR, FPSR, a debug register,
hidden state, a vector base or an SCTLR (`10_state.md` R37, `20_memory.md` R62, `70_reset_and_hazards.md`
R116(c)): the configuration is fixed for a whole run. -/
def Obligations.NoStepChangesTheConfiguration : Prop :=
  ∀ s s' : State, step s = .next s' →
    ConfigurationKept s s' ∧
      ∀ x, (s'.bank x).vbar = (s.bank x).vbar ∧ (s'.bank x).sctlr = (s.bank x).sctlr

/-- No step lowers the Exception level: an exception is never taken to a lower level, and nothing else
changes the level (`60_exceptions.md` R96, R101). -/
def Obligations.NoStepLowersTheLevel : Prop :=
  ∀ s s' : State, step s = .next s' → elRank s.pstate.el ≤ elRank s'.pstate.el

/-- A step either completes an instruction (pc plus 4, PSTATE and every exception register kept) or, with
no instruction completed, enters a handler: the target level's ELR holds the old pc, its SPSR the old
PSTATE, the pc is one of its three synchronous vectors, and general-purpose registers and stack pointers are
kept (`10_state.md` R18, R37, `60_exceptions.md` R102, R103; the bits of the SPSR that `10_state.md` R29 does
not list are the model's choice, entry 33). -/
def Obligations.EveryStepCompletesOrEntersAHandler : Prop :=
  ∀ s s' : State, step s = .next s' →
    (Completes s s' ∧ s'.pc = s.pc + 4#64 ∧ RestKept s s') ∨
    ((∀ t, ¬Completes s t) ∧
      ∃ x, (s'.bank x).elr = s.pc ∧ (s'.bank x).spsr = spsrOfPstate s.pstate ∧
      s'.pstate.el = x.level ∧ s'.pstate.spSel = true ∧
      (s'.pc = (s.bank x).vbar ∨ s'.pc = (s.bank x).vbar + 0x200#64 ∨
        s'.pc = (s.bank x).vbar + 0x400#64) ∧
      (∀ j, s'.readX j = s.readX j) ∧ (∀ l, s'.spAt l = s.spAt l) ∧ (∀ y, y ≠ x → BankKept s s' y))

/-- The outcomes of a step (`00_scope.md` R9) and what the machine's step does with each: `Next` exactly
where the word is a form that R82 lets through; after a `Fault` no instruction has completed, and the
exception is entered from the state at the fault (that the step goes on by the entry of R102 is the model's
choice, entry 1); `Refused` exactly where the step is refused. -/
def Obligations.StepTakesTheOutcome : Prop :=
  ∀ s : State,
    (∀ s', stepOutcome s = .next s' ↔ Completes s s') ∧
    (∀ e s₁, stepOutcome s = .fault e s₁ →
      step s = .next (takeSync e s₁) ∧ ∀ t, ¬Completes s t) ∧
    (∀ r, stepOutcome s = .refused r ↔ step s = .refused r)

/-- The state at a `Fault`, before the entry (`60_exceptions.md` R103): nothing has changed, or, after a
Data Abort of a form, no more than bits of its four destination lanes, which hold free values (entry 7); the
pc is still the address of the word. -/
def Obligations.FaultLeavesTheState : Prop :=
  ∀ (s s₁ : State) (e : SyncException), stepOutcome s = .fault e s₁ →
    s₁.pc = s.pc ∧
    ((∀ a, e ≠ .dataAbortAlignment a ∧ e ≠ .dataAbortOther a) → s₁ = s) ∧
    (∀ a, e = .dataAbortAlignment a ∨ e = .dataAbortOther a →
      ∃ i : Instr, fetchDecode s = .execute i ∧ OnlyLanesDiffer s s₁ i.first i.lane i.elemSize)

/-- How a run of `k` words ends (`70_reset_and_hazards.md` R118): `Done` exactly when `k` steps have each
completed an instruction, and else with the `Fault` or the refusal of the first step that did not. -/
def Obligations.RunEndsAsTheRuleSays : Prop :=
  ∀ (k : Nat) (s : State),
    (∀ s', runWords k s = .next s' ↔ CompletesRun k s s') ∧
    (∀ e t, runWords k s = .fault e t ↔
      ∃ j s', j < k ∧ CompletesRun j s s' ∧ stepOutcome s' = .fault e t) ∧
    (∀ r, runWords k s = .refused r ↔
      ∃ j s', j < k ∧ CompletesRun j s s' ∧ stepOutcome s' = .refused r)

/-- A run of `k` completed instructions: the words at `pc`, `pc + 4`, ... are LD4 words, the pc has advanced
by `4k`, and PSTATE, the exception registers and the configuration are as they were
(`70_reset_and_hazards.md` R118, R116(c)). -/
def Obligations.CompletedRunAdvancesThePc : Prop :=
  ∀ (k : Nat) (s s' : State), CompletesRun k s s' →
    s'.pc = s.pc + BitVec.ofNat 64 (4 * k) ∧ RestKept s s' ∧
    ∀ j, j < k → ∃ i : Instr, decode (fetchedWord (s.setPc (s.pc + BitVec.ofNat 64 (4 * j)))) = .instr i

/-- The execution of a form depends on no floating-point status or control, debug register, hidden state
or identification register, and changes none: with other values there the outcome is the same with those
values (`40_ld4_single_structure.md` R80, `10_state.md` R24, R36, R38). -/
def Obligations.UnnamedStateDoesNotMatter : Prop :=
  ∀ (i : Instr) (s : State) (fp : FpRegs) (debug : DebugRegs) (hidden : Hidden) (ident : BitVec 64),
    let f (s : State) : State :=
      { s with
        fp := fp
        dbg := debug
        hidden := hidden
        sys := { s.sys with idAa64Isar0El1 := ident } }
    exec i (f s) =
      match exec i s with
      | .next s' => .next (f s')
      | .fault r => .fault r
      | .refused r => .refused r

/-- The flags N, Z, C, V and the masks D, A, I, F do not influence what a form loads or where it leaves the
base: with other flags and masks a completed load is the same (`40_ld4_single_structure.md` R80). -/
def Obligations.FlagsDoNotMatter : Prop :=
  ∀ (i : Instr) (s s' : State) (n z c v d a g f : Bool),
    let p (s : State) : State :=
      { s with pstate := { s.pstate with n := n, z := z, c := c, v := v, d := d, a := a, i := g, f := f } }
    LoadReady s i.base i.elemSize → exec i s = .next s' → exec i (p s) = .next (p s')

/-- A general-purpose register that is neither the base nor the offset is not read and not written
(`10_state.md` R13, R37): with another value in it the outcome is the same with that value. -/
def Obligations.UnnamedGeneralRegistersDoNotMatter : Prop :=
  ∀ (i : Instr) (s : State) (j : Fin 31) (w : Word), i.base ≠ .x j → i.post ≠ .reg j →
    exec i (s.writeX j w) =
      match exec i s with
      | .next s' => .next (s'.writeX j w)
      | .fault r => .fault r
      | .refused r => .refused r

/-! ### Registers, memory and reset -/

/-- What reset leaves, on every platform (the values `70_reset_and_hazards.md` R113 gives): the highest
implemented level, SPSel 1, D, A, I, F all 1, SS, IL and nRW 0, the pc at the reset address, Secure where
EL3 is implemented; and a reset to EL2 is Non-secure (`10_state.md` R27; without EL3 the model's reading,
entry 17). -/
def Obligations.ResetStateFollowsTheRule : Prop :=
  ∀ p : Platform,
    let s := State.resetOn p
    (haveEl p s.pstate.el = true ∧ ∀ l, haveEl p l = true → elRank l ≤ elRank s.pstate.el) ∧
    s.pstate.nRW = false ∧ s.pc = p.resetPc ∧ s.pstate.spSel = true ∧
    s.pstate.d = true ∧ s.pstate.a = true ∧ s.pstate.i = true ∧ s.pstate.f = true ∧
    s.pstate.ss = false ∧ s.pstate.il = false ∧ (p.hasEl3 = true → s.secure = true) ∧
    (s.pstate.el = .el2 → s.secure = false)

/-- Which stack pointer SP names, read and written (`10_state.md` R17): SP_EL0 when SPSel is 0, else
SP_ELx of the current level; the other three are not changed by a write. -/
def Obligations.StackPointerSelection : Prop :=
  ∀ (s : State) (w : Word),
    (s.pstate.spSel = false → s.readSp = s.spEl0) ∧
    (s.pstate.spSel = true → s.pstate.el = .el0 → s.readSp = s.spEl0) ∧
    (∀ x : TargetEl, s.pstate.spSel = true → s.pstate.el = x.level → s.readSp = (s.bank x).sp) ∧
    (s.writeSp w).readSp = w ∧
    (∀ l, l ≠ selectedStack s → (s.writeSp w).spAt l = s.spAt l)

/-- The controls of the current level (`10_state.md` R34, R27): the `A` bit and the endianness bit of the
regime's SCTLR, and Secure from `SCR_EL3.NS`; without EL3 the platform's bit, but Non-secure with EL2 (the
model's reading, entry 17). -/
def Obligations.LevelSelectsTheControls : Prop :=
  ∀ s : State,
    (s.pstate.el = .el0 → s.alignCheck = s.bank1.sctlr.getLsbD 1 ∧
      s.bigEndianData = s.bank1.sctlr.getLsbD 24) ∧
    (∀ x : TargetEl, s.pstate.el = x.level → s.alignCheck = (s.bank x).sctlr.getLsbD 1 ∧
      s.bigEndianData = (s.bank x).sctlr.getLsbD 25) ∧
    (s.platform.hasEl3 = true → s.pstate.el = .el3 → s.secure = true) ∧
    (s.platform.hasEl3 = true → s.pstate.el ≠ .el3 →
      (s.secure = true ↔ s.sys.scrEl3.getLsbD 0 = false)) ∧
    (s.platform.hasEl3 = false →
      (s.secure = true ↔ s.platform.secureOnly = true ∧ s.platform.hasEl2 = false))

/-- The register views of PSTATE: NZCV has the flags in bits 31:28 (`10_state.md` R19), DAIF the masks in
bits 9:6, SPSel its bit 0, CurrentEL the level in bits 3:2 (R25), and no other bit set (the other bits are
the model's choice, PRESUMED, entry 32). -/
def Obligations.PstateViews : Prop :=
  ∀ (p : Pstate) (j : Nat),
    (nzcvRegister p).getLsbD j =
      (if j = 31 then p.n else if j = 30 then p.z else if j = 29 then p.c else
        if j = 28 then p.v else false) ∧
    (daifRegister p).getLsbD j =
      (if j = 9 then p.d else if j = 8 then p.a else if j = 7 then p.i else
        if j = 6 then p.f else false) ∧
    (spSelRegister p).getLsbD j = (if j = 0 then p.spSel else false) ∧
    (currentElRegister p).toNat = 4 * elRank p.el

/-- A register holds `128/esize` elements; element `e` is bits `[e*esize + esize - 1 : e*esize]`; writing it replaces exactly
those bits by the low bits of the value (`10_state.md` R22, `00_scope.md` R8). -/
def Obligations.ElementsAreBitFields : Prop :=
  (∀ sz : ElemSize, sz.lanes * elemBits sz = 128) ∧
  ∀ (v : VWord) (sz : ElemSize) (e : Nat) (x : BitVec 64), e < sz.lanes →
    (∀ j, j < 128 → (setElem v e (elemBits sz) x).getLsbD j =
      if InLane e sz j then x.getLsbD (j - e * elemBits sz) else v.getLsbD j) ∧
    (∀ j, j < elemBits sz → (elem v e (elemBits sz)).getLsbD j = v.getLsbD (e * elemBits sz + j)) ∧
    (∀ e', e' < sz.lanes → e' ≠ e →
      elem (setElem v e (elemBits sz) x) e' (elemBits sz) = elem v e' (elemBits sz))

/-- A little-endian element read (`20_memory.md` R43): bits `[8k+7 : 8k]` of the value are the byte at
`a + k`, and no bit above the element is set. -/
def Obligations.LittleEndianRead : Prop :=
  ∀ (s : State) (a : Word) (sz : ElemSize) (x : BitVec 64), s.bigEndianData = false →
    memRead s a sz = .ok x →
    (∀ k, k < elemBytes sz → x.extractLsb' (8 * k) 8 = s.dataByte (a + BitVec.ofNat 64 k)) ∧
    x.toNat < 2 ^ elemBits sz

/-- A big-endian element read (`20_memory.md` R44): bits `[8k+7 : 8k]` of the value are the byte at
`a + (n-1-k)`; the elements of a structure stay at increasing addresses in both byte orders; a one-byte
element does not depend on the byte order. -/
def Obligations.BigEndianRead : Prop :=
  (∀ (s : State) (a : Word) (sz : ElemSize) (x : BitVec 64), s.bigEndianData = true →
    memRead s a sz = .ok x →
    ∀ k, k < elemBytes sz →
      x.extractLsb' (8 * k) 8 = s.dataByte (a + BitVec.ofNat 64 (elemBytes sz - 1 - k))) ∧
  (∀ (s : State) (base : Word) (sz : ElemSize) (es : List (BitVec 64)), readStructure s base sz = .ok es →
    es.length = 4 ∧ ∀ k, k < 4 →
      memRead s (base + BitVec.ofNat 64 (k * elemBytes sz)) sz = .ok (es.getD k 0#64)) ∧
  (∀ (s : State) (a : Word) (x : BitVec 64), memRead s a .b = .ok x →
    x = (s.dataByte a).setWidth 64)

/-- Memories in canonical form that read the same at every address are the same data
(`20_memory.md` R42; the canonical form is the model's choice, entry 4). -/
def Obligations.EqualReadsMeanEqualMemories : Prop :=
  ∀ m m' : Memory, Memory.wf m = true → Memory.wf m' = true →
    (∀ a, Memory.read m a = Memory.read m' a) → m = m'
end

