-- ==== Sys2Proof/Laws/Decode.lean ====
section
/-!
SUPPORT. The fields of the word `wordOfFields` builds, and what the decoder needs to answer a form.
-/

namespace Sys2Proof

section Fields

variable (q p : BitVec 1) (rm : BitVec 5) (opcode : BitVec 3) (s : BitVec 1) (size : BitVec 2)
  (rn rt : BitVec 5)

/-- Bit `j` of a word, by the field it lies in (`30_encoding.md` R65). -/
theorem getLsbD_wordOfFields (j : Nat) (hj : j < 32) :
    (wordOfFields q p rm opcode s size rn rt).getLsbD j =
      if j < 5 then rt.getLsbD j
      else if j < 10 then rn.getLsbD (j - 5)
      else if j < 12 then size.getLsbD (j - 10)
      else if j < 13 then s.getLsbD (j - 12)
      else if j < 16 then opcode.getLsbD (j - 13)
      else if j < 21 then rm.getLsbD (j - 16)
      else if j < 22 then true
      else if j < 23 then true
      else if j < 24 then p.getLsbD (j - 23)
      else if j < 30 then (0b001101#6).getLsbD (j - 24)
      else if j < 31 then q.getLsbD (j - 30)
      else false := by
  simp only [wordOfFields, BitVec.getLsbD_append]
  interval_cases j <;> rfl

@[simp] theorem fieldRt_wordOfFields :
    fieldRt (wordOfFields q p rm opcode s size rn rt) = rt := by
  refine BitVec.eq_of_getLsbD_eq fun j hj => ?_
  simp only [fieldRt, BitVec.getLsbD_extractLsb']
  rw [getLsbD_wordOfFields _ _ _ _ _ _ _ _ _ (by omega)]
  interval_cases j <;> rfl

@[simp] theorem fieldRn_wordOfFields :
    fieldRn (wordOfFields q p rm opcode s size rn rt) = rn := by
  refine BitVec.eq_of_getLsbD_eq fun j hj => ?_
  simp only [fieldRn, BitVec.getLsbD_extractLsb']
  rw [getLsbD_wordOfFields _ _ _ _ _ _ _ _ _ (by omega)]
  interval_cases j <;> rfl

@[simp] theorem fieldSize_wordOfFields :
    fieldSize (wordOfFields q p rm opcode s size rn rt) = size := by
  refine BitVec.eq_of_getLsbD_eq fun j hj => ?_
  simp only [fieldSize, BitVec.getLsbD_extractLsb']
  rw [getLsbD_wordOfFields _ _ _ _ _ _ _ _ _ (by omega)]
  interval_cases j <;> rfl

@[simp] theorem fieldS_wordOfFields :
    fieldS (wordOfFields q p rm opcode s size rn rt) = s := by
  refine BitVec.eq_of_getLsbD_eq fun j hj => ?_
  simp only [fieldS, BitVec.getLsbD_extractLsb']
  rw [getLsbD_wordOfFields _ _ _ _ _ _ _ _ _ (by omega)]
  obtain rfl : j = 0 := by omega
  rfl

@[simp] theorem fieldOpcode_wordOfFields :
    fieldOpcode (wordOfFields q p rm opcode s size rn rt) = opcode := by
  refine BitVec.eq_of_getLsbD_eq fun j hj => ?_
  simp only [fieldOpcode, BitVec.getLsbD_extractLsb']
  rw [getLsbD_wordOfFields _ _ _ _ _ _ _ _ _ (by omega)]
  interval_cases j <;> rfl

@[simp] theorem fieldRm_wordOfFields :
    fieldRm (wordOfFields q p rm opcode s size rn rt) = rm := by
  refine BitVec.eq_of_getLsbD_eq fun j hj => ?_
  simp only [fieldRm, BitVec.getLsbD_extractLsb']
  rw [getLsbD_wordOfFields _ _ _ _ _ _ _ _ _ (by omega)]
  interval_cases j <;> rfl

@[simp] theorem fieldP_wordOfFields :
    fieldP (wordOfFields q p rm opcode s size rn rt) = p := by
  refine BitVec.eq_of_getLsbD_eq fun j hj => ?_
  simp only [fieldP, BitVec.getLsbD_extractLsb']
  rw [getLsbD_wordOfFields _ _ _ _ _ _ _ _ _ (by omega)]
  obtain rfl : j = 0 := by omega
  rfl

@[simp] theorem fieldQ_wordOfFields :
    fieldQ (wordOfFields q p rm opcode s size rn rt) = q := by
  refine BitVec.eq_of_getLsbD_eq fun j hj => ?_
  simp only [fieldQ, BitVec.getLsbD_extractLsb']
  rw [getLsbD_wordOfFields _ _ _ _ _ _ _ _ _ (by omega)]
  obtain rfl : j = 0 := by omega
  rfl

@[simp] theorem fieldL_wordOfFields :
    fieldL (wordOfFields q p rm opcode s size rn rt) = 1#1 := by
  refine BitVec.eq_of_getLsbD_eq fun j hj => ?_
  simp only [fieldL, BitVec.getLsbD_extractLsb']
  rw [getLsbD_wordOfFields _ _ _ _ _ _ _ _ _ (by omega)]
  obtain rfl : j = 0 := by omega
  rfl

@[simp] theorem fieldR_wordOfFields :
    fieldR (wordOfFields q p rm opcode s size rn rt) = 1#1 := by
  refine BitVec.eq_of_getLsbD_eq fun j hj => ?_
  simp only [fieldR, BitVec.getLsbD_extractLsb']
  rw [getLsbD_wordOfFields _ _ _ _ _ _ _ _ _ (by omega)]
  obtain rfl : j = 0 := by omega
  rfl

@[simp] theorem fieldClass_wordOfFields :
    fieldClass (wordOfFields q p rm opcode s size rn rt) = 0b001101#6 := by
  refine BitVec.eq_of_getLsbD_eq fun j hj => ?_
  simp only [fieldClass, BitVec.getLsbD_extractLsb']
  rw [getLsbD_wordOfFields _ _ _ _ _ _ _ _ _ (by omega)]
  interval_cases j <;> rfl

@[simp] theorem getElem_31_wordOfFields :
    (wordOfFields q p rm opcode s size rn rt)[31] = false :=
  getLsbD_wordOfFields q p rm opcode s size rn rt 31 (by omega)

/-- What the decoder answers for a word of the class (`30_encoding.md` R70). -/
theorem decode_wordOfFields :
    decode (wordOfFields q p rm opcode s size rn rt) =
      if !opcode.getLsbD 0 then .notInScope .ld2Form
      else if p = 0#1 && rm != 0#5 then .reserved .offsetWithoutPostIndex
      else
        match sizeOfFields opcode s size with
        | .error other => other
        | .ok sz =>
          .instr (Instr.ofOperands sz (postOfFields p rm) (vregOfField rt) (baseOfField rn)
            (laneOfFields sz q s size)) := by
  first
    | simp [decode]
      done
    | simp [decode]
      rfl

end Fields

/-- A word of the class is the word of its own fields. -/
theorem wordOfFields_fields (w : InstrWord) (h31 : w.getLsbD 31 = false)
    (hc : fieldClass w = 0b001101#6) (hl : fieldL w = 1#1) (hr : fieldR w = 1#1) :
    wordOfFields (fieldQ w) (fieldP w) (fieldRm w) (fieldOpcode w) (fieldS w) (fieldSize w) (fieldRn w)
      (fieldRt w) = w := by
  have class_bit : ∀ j, (fieldClass w).getLsbD j = (0b001101#6).getLsbD j := fun j => by rw [hc]
  have bit22 : (fieldL w).getLsbD 0 = true := by rw [hl]; rfl
  have bit21 : (fieldR w).getLsbD 0 = true := by rw [hr]; rfl
  simp only [fieldClass, fieldL, fieldR, BitVec.getLsbD_extractLsb'] at class_bit bit22 bit21
  refine BitVec.eq_of_getLsbD_eq fun j hj => ?_
  rw [getLsbD_wordOfFields _ _ _ _ _ _ _ _ _ hj]
  have h24 := class_bit 0
  have h25 := class_bit 1
  have h26 := class_bit 2
  have h27 := class_bit 3
  have h28 := class_bit 4
  have h29 := class_bit 5
  simp only [fieldQ, fieldP, fieldRm, fieldOpcode, fieldS, fieldSize, fieldRn, fieldRt,
    BitVec.getLsbD_extractLsb']
  interval_cases j <;> simp_all

/-- What a word that decodes to an instruction is: in the class, a load of four, and with the fields of
the instruction (`30_encoding.md` R70). -/
theorem decode_eq_instr (w : InstrWord) (i : Instr) (h : decode w = .instr i) :
    w.getLsbD 31 = false ∧ fieldClass w = 0b001101#6 ∧ fieldL w = 1#1 ∧ fieldR w = 1#1 ∧
      (fieldOpcode w).getLsbD 0 = true ∧ (fieldP w = 0#1 → fieldRm w = 0#5) ∧
      ∃ sz, sizeOfFields (fieldOpcode w) (fieldS w) (fieldSize w) = .ok sz ∧
        i = Instr.ofOperands sz (postOfFields (fieldP w) (fieldRm w)) (vregOfField (fieldRt w))
          (baseOfField (fieldRn w)) (laneOfFields sz (fieldQ w) (fieldS w) (fieldSize w)) := by
  have one : ∀ b : BitVec 1, b ≠ 0#1 → b = 1#1 := by decide
  have noInstr : ∀ o, sizeOfFields (fieldOpcode w) (fieldS w) (fieldSize w) = .error o →
      o ≠ .instr i := by
    intro o ho
    unfold sizeOfFields at ho
    repeat' split at ho
    all_goals (cases ho; try (intro hc; cases hc))
  unfold decode at h
  split at h
  · cases h
  · split at h
    · cases h
    · split at h
      · split at h <;> cases h
      · split at h
        · cases h
        · split at h
          · cases h
          · cases hs : sizeOfFields (fieldOpcode w) (fieldS w) (fieldSize w) with
            | error o => rw [hs] at h; exact absurd h (noInstr o hs)
            | ok sz =>
              rw [hs] at h
              cases h
              simp_all

/-! ### The operand fields and their inverses -/

@[simp] theorem baseOfField_fieldOfBase (n : XSp) : baseOfField (fieldOfBase n) = n := by
  cases n with
  | sp => rfl
  | x n => revert n; decide

@[simp] theorem fieldOfBase_baseOfField (f : BitVec 5) : fieldOfBase (baseOfField f) = f := by
  revert f; decide

@[simp] theorem postOfFields_fieldsOfPost (p : PostIndex) :
    postOfFields (fieldsOfPost p).1 (fieldsOfPost p).2 = p := by
  cases p with
  | none => rfl
  | imm => rfl
  | reg m => revert m; decide

/-- The fields `P` and `Rm` come back from a post-index operand, unless `P = 0` with a non-zero `Rm`. -/
theorem fieldsOfPost_postOfFields (p : BitVec 1) (rm : BitVec 5) (h : p = 0#1 → rm = 0#5) :
    fieldsOfPost (postOfFields p rm) = (p, rm) := by
  revert p rm; decide

@[simp] theorem sizeOfFields_encoded (sz : ElemSize) (k : Nat) :
    sizeOfFields (opcodeOfSize sz) (fieldsOfLane sz k).2.1 (fieldsOfLane sz k).2.2 = .ok sz := by
  have halfword : ∀ (b : Fin 2) (s : BitVec 1),
      sizeOfFields 0b011#3 s (BitVec.ofNat 2 (2 * b.val)) = .ok .h := by decide
  cases sz
  case h => exact halfword ⟨k % 2, Nat.mod_lt _ (by decide)⟩ _
  all_goals simp [sizeOfFields, opcodeOfSize, fieldsOfLane]

/-- The lane index comes back from its fields when it is in the range of the size. -/
theorem laneOfFields_fieldsOfLane (sz : ElemSize) (k : Nat) (h : k < sz.lanes) :
    laneOfFields sz (fieldsOfLane sz k).1 (fieldsOfLane sz k).2.1 (fieldsOfLane sz k).2.2 = k := by
  cases sz <;> simp only [ElemSize.lanes] at h <;> interval_cases k <;> rfl

/-- The fields that select a size are the ones its encoding has, and the lane index they hold is in the
range of the size. -/
theorem sizeOfFields_eq_ok {opcode : BitVec 3} {s : BitVec 1} {size : BitVec 2} {sz : ElemSize}
    (q : BitVec 1) (ho : opcode.getLsbD 0 = true) (h : sizeOfFields opcode s size = .ok sz) :
    opcode = opcodeOfSize sz ∧ laneOfFields sz q s size < sz.lanes ∧
      fieldsOfLane sz (laneOfFields sz q s size) = (q, s, size) := by
  revert opcode s size q
  cases sz <;> decide

/-! ### The operands of an instruction -/

@[simp] theorem Instr.ofOperands_operands (i : Instr) :
    Instr.ofOperands i.elemSize i.post i.first i.base i.lane = i := by
  cases i <;> rfl

section Operands

variable (sz : ElemSize) (post : PostIndex) (t : Fin 32) (n : XSp) (index : Nat)

@[simp] theorem Instr.elemSize_ofOperands : (Instr.ofOperands sz post t n index).elemSize = sz := by
  cases sz <;> cases post <;> rfl

@[simp] theorem Instr.post_ofOperands : (Instr.ofOperands sz post t n index).post = post := by
  cases sz <;> cases post <;> rfl

@[simp] theorem Instr.first_ofOperands : (Instr.ofOperands sz post t n index).first = t := by
  cases sz <;> cases post <;> rfl

@[simp] theorem Instr.base_ofOperands : (Instr.ofOperands sz post t n index).base = n := by
  cases sz <;> cases post <;> rfl

@[simp] theorem Instr.lane_ofOperands : (Instr.ofOperands sz post t n index).lane = index := by
  cases sz <;> cases post <;> rfl

end Operands

/-- An instruction is well formed when its lane is one its element size has. -/
theorem Instr.wellFormed_iff (i : Instr) : i.wellFormed = true ↔ i.lane < i.elemSize.lanes := by
  cases i <;> exact decide_eq_true_iff

end Sys2Proof
end

