-- ==== Sys2Proof/Laws/State.lean ====
section
/-!
SUPPORT. One lemma for each field of the state and each named update, and the reads of registers after
them, so that no proof unfolds a record update.
-/

namespace Sys2Proof.Machine

variable (s : State)

/-! ### `State.writeX` -/

@[simp] theorem State.writeX_x (i : Fin 31) (w : Word) : (s.writeX i w).x = s.x.set i w := rfl
@[simp] theorem State.writeX_spEl0 (i : Fin 31) (w : Word) : (s.writeX i w).spEl0 = s.spEl0 := rfl
@[simp] theorem State.writeX_pc (i : Fin 31) (w : Word) : (s.writeX i w).pc = s.pc := rfl
@[simp] theorem State.writeX_v (i : Fin 31) (w : Word) : (s.writeX i w).v = s.v := rfl
@[simp] theorem State.writeX_pstate (i : Fin 31) (w : Word) : (s.writeX i w).pstate = s.pstate := rfl
@[simp] theorem State.writeX_bank1 (i : Fin 31) (w : Word) : (s.writeX i w).bank1 = s.bank1 := rfl
@[simp] theorem State.writeX_bank2 (i : Fin 31) (w : Word) : (s.writeX i w).bank2 = s.bank2 := rfl
@[simp] theorem State.writeX_bank3 (i : Fin 31) (w : Word) : (s.writeX i w).bank3 = s.bank3 := rfl
@[simp] theorem State.writeX_fp (i : Fin 31) (w : Word) : (s.writeX i w).fp = s.fp := rfl
@[simp] theorem State.writeX_sys (i : Fin 31) (w : Word) : (s.writeX i w).sys = s.sys := rfl
@[simp] theorem State.writeX_dbg (i : Fin 31) (w : Word) : (s.writeX i w).dbg = s.dbg := rfl
@[simp] theorem State.writeX_hidden (i : Fin 31) (w : Word) : (s.writeX i w).hidden = s.hidden := rfl
@[simp] theorem State.writeX_mem (i : Fin 31) (w : Word) : (s.writeX i w).mem = s.mem := rfl
@[simp] theorem State.writeX_text (i : Fin 31) (w : Word) : (s.writeX i w).text = s.text := rfl
@[simp] theorem State.writeX_platform (i : Fin 31) (w : Word) : (s.writeX i w).platform = s.platform := rfl
@[simp] theorem State.writeX_freeCount (i : Fin 31) (w : Word) : (s.writeX i w).freeCount = s.freeCount := rfl

/-! ### `State.setVregs` -/

@[simp] theorem State.setVregs_x (v : Vector VWord 32) : (s.setVregs v).x = s.x := rfl
@[simp] theorem State.setVregs_spEl0 (v : Vector VWord 32) : (s.setVregs v).spEl0 = s.spEl0 := rfl
@[simp] theorem State.setVregs_pc (v : Vector VWord 32) : (s.setVregs v).pc = s.pc := rfl
@[simp] theorem State.setVregs_v (v : Vector VWord 32) : (s.setVregs v).v = v := rfl
@[simp] theorem State.setVregs_pstate (v : Vector VWord 32) : (s.setVregs v).pstate = s.pstate := rfl
@[simp] theorem State.setVregs_bank1 (v : Vector VWord 32) : (s.setVregs v).bank1 = s.bank1 := rfl
@[simp] theorem State.setVregs_bank2 (v : Vector VWord 32) : (s.setVregs v).bank2 = s.bank2 := rfl
@[simp] theorem State.setVregs_bank3 (v : Vector VWord 32) : (s.setVregs v).bank3 = s.bank3 := rfl
@[simp] theorem State.setVregs_fp (v : Vector VWord 32) : (s.setVregs v).fp = s.fp := rfl
@[simp] theorem State.setVregs_sys (v : Vector VWord 32) : (s.setVregs v).sys = s.sys := rfl
@[simp] theorem State.setVregs_dbg (v : Vector VWord 32) : (s.setVregs v).dbg = s.dbg := rfl
@[simp] theorem State.setVregs_hidden (v : Vector VWord 32) : (s.setVregs v).hidden = s.hidden := rfl
@[simp] theorem State.setVregs_mem (v : Vector VWord 32) : (s.setVregs v).mem = s.mem := rfl
@[simp] theorem State.setVregs_text (v : Vector VWord 32) : (s.setVregs v).text = s.text := rfl
@[simp] theorem State.setVregs_platform (v : Vector VWord 32) : (s.setVregs v).platform = s.platform := rfl
@[simp] theorem State.setVregs_freeCount (v : Vector VWord 32) : (s.setVregs v).freeCount = s.freeCount := rfl

/-! ### `State.setPc` -/

@[simp] theorem State.setPc_x (a : Word) : (s.setPc a).x = s.x := rfl
@[simp] theorem State.setPc_spEl0 (a : Word) : (s.setPc a).spEl0 = s.spEl0 := rfl
@[simp] theorem State.setPc_pc (a : Word) : (s.setPc a).pc = a := rfl
@[simp] theorem State.setPc_v (a : Word) : (s.setPc a).v = s.v := rfl
@[simp] theorem State.setPc_pstate (a : Word) : (s.setPc a).pstate = s.pstate := rfl
@[simp] theorem State.setPc_bank1 (a : Word) : (s.setPc a).bank1 = s.bank1 := rfl
@[simp] theorem State.setPc_bank2 (a : Word) : (s.setPc a).bank2 = s.bank2 := rfl
@[simp] theorem State.setPc_bank3 (a : Word) : (s.setPc a).bank3 = s.bank3 := rfl
@[simp] theorem State.setPc_fp (a : Word) : (s.setPc a).fp = s.fp := rfl
@[simp] theorem State.setPc_sys (a : Word) : (s.setPc a).sys = s.sys := rfl
@[simp] theorem State.setPc_dbg (a : Word) : (s.setPc a).dbg = s.dbg := rfl
@[simp] theorem State.setPc_hidden (a : Word) : (s.setPc a).hidden = s.hidden := rfl
@[simp] theorem State.setPc_mem (a : Word) : (s.setPc a).mem = s.mem := rfl
@[simp] theorem State.setPc_text (a : Word) : (s.setPc a).text = s.text := rfl
@[simp] theorem State.setPc_platform (a : Word) : (s.setPc a).platform = s.platform := rfl
@[simp] theorem State.setPc_freeCount (a : Word) : (s.setPc a).freeCount = s.freeCount := rfl

/-! ### `State.setPstate` -/

@[simp] theorem State.setPstate_x (p : Pstate) : (s.setPstate p).x = s.x := rfl
@[simp] theorem State.setPstate_spEl0 (p : Pstate) : (s.setPstate p).spEl0 = s.spEl0 := rfl
@[simp] theorem State.setPstate_pc (p : Pstate) : (s.setPstate p).pc = s.pc := rfl
@[simp] theorem State.setPstate_v (p : Pstate) : (s.setPstate p).v = s.v := rfl
@[simp] theorem State.setPstate_pstate (p : Pstate) : (s.setPstate p).pstate = p := rfl
@[simp] theorem State.setPstate_bank1 (p : Pstate) : (s.setPstate p).bank1 = s.bank1 := rfl
@[simp] theorem State.setPstate_bank2 (p : Pstate) : (s.setPstate p).bank2 = s.bank2 := rfl
@[simp] theorem State.setPstate_bank3 (p : Pstate) : (s.setPstate p).bank3 = s.bank3 := rfl
@[simp] theorem State.setPstate_fp (p : Pstate) : (s.setPstate p).fp = s.fp := rfl
@[simp] theorem State.setPstate_sys (p : Pstate) : (s.setPstate p).sys = s.sys := rfl
@[simp] theorem State.setPstate_dbg (p : Pstate) : (s.setPstate p).dbg = s.dbg := rfl
@[simp] theorem State.setPstate_hidden (p : Pstate) : (s.setPstate p).hidden = s.hidden := rfl
@[simp] theorem State.setPstate_mem (p : Pstate) : (s.setPstate p).mem = s.mem := rfl
@[simp] theorem State.setPstate_text (p : Pstate) : (s.setPstate p).text = s.text := rfl
@[simp] theorem State.setPstate_platform (p : Pstate) : (s.setPstate p).platform = s.platform := rfl
@[simp] theorem State.setPstate_freeCount (p : Pstate) : (s.setPstate p).freeCount = s.freeCount := rfl

/-! ### `State.setProgram` -/

@[simp] theorem State.setProgram_x (m : Memory) (t : ProgramText) : (s.setProgram m t).x = s.x := rfl
@[simp] theorem State.setProgram_spEl0 (m : Memory) (t : ProgramText) : (s.setProgram m t).spEl0 = s.spEl0 := rfl
@[simp] theorem State.setProgram_pc (m : Memory) (t : ProgramText) : (s.setProgram m t).pc = s.pc := rfl
@[simp] theorem State.setProgram_v (m : Memory) (t : ProgramText) : (s.setProgram m t).v = s.v := rfl
@[simp] theorem State.setProgram_pstate (m : Memory) (t : ProgramText) : (s.setProgram m t).pstate = s.pstate := rfl
@[simp] theorem State.setProgram_bank1 (m : Memory) (t : ProgramText) : (s.setProgram m t).bank1 = s.bank1 := rfl
@[simp] theorem State.setProgram_bank2 (m : Memory) (t : ProgramText) : (s.setProgram m t).bank2 = s.bank2 := rfl
@[simp] theorem State.setProgram_bank3 (m : Memory) (t : ProgramText) : (s.setProgram m t).bank3 = s.bank3 := rfl
@[simp] theorem State.setProgram_fp (m : Memory) (t : ProgramText) : (s.setProgram m t).fp = s.fp := rfl
@[simp] theorem State.setProgram_sys (m : Memory) (t : ProgramText) : (s.setProgram m t).sys = s.sys := rfl
@[simp] theorem State.setProgram_dbg (m : Memory) (t : ProgramText) : (s.setProgram m t).dbg = s.dbg := rfl
@[simp] theorem State.setProgram_hidden (m : Memory) (t : ProgramText) : (s.setProgram m t).hidden = s.hidden := rfl
@[simp] theorem State.setProgram_mem (m : Memory) (t : ProgramText) : (s.setProgram m t).mem = m := rfl
@[simp] theorem State.setProgram_text (m : Memory) (t : ProgramText) : (s.setProgram m t).text = t := rfl
@[simp] theorem State.setProgram_platform (m : Memory) (t : ProgramText) : (s.setProgram m t).platform = s.platform := rfl
@[simp] theorem State.setProgram_freeCount (m : Memory) (t : ProgramText) : (s.setProgram m t).freeCount = s.freeCount := rfl

/-! ### `State.tick` -/

@[simp] theorem State.tick_x : s.tick.x = s.x := rfl
@[simp] theorem State.tick_spEl0 : s.tick.spEl0 = s.spEl0 := rfl
@[simp] theorem State.tick_pc : s.tick.pc = s.pc := rfl
@[simp] theorem State.tick_v : s.tick.v = s.v := rfl
@[simp] theorem State.tick_pstate : s.tick.pstate = s.pstate := rfl
@[simp] theorem State.tick_bank1 : s.tick.bank1 = s.bank1 := rfl
@[simp] theorem State.tick_bank2 : s.tick.bank2 = s.bank2 := rfl
@[simp] theorem State.tick_bank3 : s.tick.bank3 = s.bank3 := rfl
@[simp] theorem State.tick_fp : s.tick.fp = s.fp := rfl
@[simp] theorem State.tick_sys : s.tick.sys = s.sys := rfl
@[simp] theorem State.tick_dbg : s.tick.dbg = s.dbg := rfl
@[simp] theorem State.tick_hidden : s.tick.hidden = s.hidden := rfl
@[simp] theorem State.tick_mem : s.tick.mem = s.mem := rfl
@[simp] theorem State.tick_text : s.tick.text = s.text := rfl
@[simp] theorem State.tick_platform : s.tick.platform = s.platform := rfl
@[simp] theorem State.tick_freeCount : s.tick.freeCount = s.freeCount + 1 := rfl

/-! ### `State.setBank` -/

@[simp] theorem State.setBank_x (y : TargetEl) (b : Bank) : (s.setBank y b).x = s.x := by
  cases y <;> rfl
@[simp] theorem State.setBank_spEl0 (y : TargetEl) (b : Bank) : (s.setBank y b).spEl0 = s.spEl0 := by
  cases y <;> rfl
@[simp] theorem State.setBank_pc (y : TargetEl) (b : Bank) : (s.setBank y b).pc = s.pc := by
  cases y <;> rfl
@[simp] theorem State.setBank_v (y : TargetEl) (b : Bank) : (s.setBank y b).v = s.v := by
  cases y <;> rfl
@[simp] theorem State.setBank_pstate (y : TargetEl) (b : Bank) : (s.setBank y b).pstate = s.pstate := by
  cases y <;> rfl
@[simp] theorem State.setBank_fp (y : TargetEl) (b : Bank) : (s.setBank y b).fp = s.fp := by
  cases y <;> rfl
@[simp] theorem State.setBank_sys (y : TargetEl) (b : Bank) : (s.setBank y b).sys = s.sys := by
  cases y <;> rfl
@[simp] theorem State.setBank_dbg (y : TargetEl) (b : Bank) : (s.setBank y b).dbg = s.dbg := by
  cases y <;> rfl
@[simp] theorem State.setBank_hidden (y : TargetEl) (b : Bank) : (s.setBank y b).hidden = s.hidden := by
  cases y <;> rfl
@[simp] theorem State.setBank_mem (y : TargetEl) (b : Bank) : (s.setBank y b).mem = s.mem := by
  cases y <;> rfl
@[simp] theorem State.setBank_text (y : TargetEl) (b : Bank) : (s.setBank y b).text = s.text := by
  cases y <;> rfl
@[simp] theorem State.setBank_platform (y : TargetEl) (b : Bank) : (s.setBank y b).platform = s.platform := by
  cases y <;> rfl
@[simp] theorem State.setBank_freeCount (y : TargetEl) (b : Bank) : (s.setBank y b).freeCount = s.freeCount := by
  cases y <;> rfl

@[simp] theorem State.bank_setBank (y z : TargetEl) (b : Bank) :
    (s.setBank y b).bank z = if z = y then b else s.bank z := by
  cases y <;> cases z <;> rfl

@[simp] theorem State.bank_writeX (i : Fin 31) (w : Word) (z : TargetEl) : (s.writeX i w).bank z = s.bank z := by
  cases z <;> rfl
@[simp] theorem State.bank_setVregs (v : Vector VWord 32) (z : TargetEl) : (s.setVregs v).bank z = s.bank z := by
  cases z <;> rfl
@[simp] theorem State.bank_setPc (a : Word) (z : TargetEl) : (s.setPc a).bank z = s.bank z := by
  cases z <;> rfl
@[simp] theorem State.bank_setPstate (p : Pstate) (z : TargetEl) : (s.setPstate p).bank z = s.bank z := by
  cases z <;> rfl
@[simp] theorem State.bank_setProgram (m : Memory) (t : ProgramText) (z : TargetEl) : (s.setProgram m t).bank z = s.bank z := by
  cases z <;> rfl
@[simp] theorem State.bank_tick (z : TargetEl) : s.tick.bank z = s.bank z := by
  cases z <;> rfl

/-! ### Reads after updates -/

@[simp] theorem State.readX_writeX (i j : Fin 31) (w : Word) :
    (s.writeX i w).readX j = if j = i then w else s.readX j := by
  by_cases h : j = i
  · subst h; simp [State.readX]
  · simp [State.readX, h, Fin.val_inj, Ne.symm h]

@[simp] theorem State.readX_setVregs (v : Vector VWord 32) (j : Fin 31) : (s.setVregs v).readX j = s.readX j := rfl
@[simp] theorem State.readX_setPc (a : Word) (j : Fin 31) : (s.setPc a).readX j = s.readX j := rfl
@[simp] theorem State.readX_setPstate (p : Pstate) (j : Fin 31) : (s.setPstate p).readX j = s.readX j := rfl
@[simp] theorem State.readX_setProgram (m : Memory) (t : ProgramText) (j : Fin 31) : (s.setProgram m t).readX j = s.readX j := rfl
@[simp] theorem State.readX_tick (j : Fin 31) : s.tick.readX j = s.readX j := rfl
@[simp] theorem State.readX_setBank (y : TargetEl) (b : Bank) (j : Fin 31) :
    (s.setBank y b).readX j = s.readX j := by
  cases y <;> rfl

@[simp] theorem State.readV_setVregs (v : Vector VWord 32) (r : Fin 32) :
    (s.setVregs v).readV r = v[r] := rfl
@[simp] theorem State.readV_writeX (i : Fin 31) (w : Word) (r : Fin 32) : (s.writeX i w).readV r = s.readV r := rfl
@[simp] theorem State.readV_setPc (a : Word) (r : Fin 32) : (s.setPc a).readV r = s.readV r := rfl
@[simp] theorem State.readV_setPstate (p : Pstate) (r : Fin 32) : (s.setPstate p).readV r = s.readV r := rfl
@[simp] theorem State.readV_setProgram (m : Memory) (t : ProgramText) (r : Fin 32) : (s.setProgram m t).readV r = s.readV r := rfl
@[simp] theorem State.readV_tick (r : Fin 32) : s.tick.readV r = s.readV r := rfl
@[simp] theorem State.readV_setBank (y : TargetEl) (b : Bank) (r : Fin 32) :
    (s.setBank y b).readV r = s.readV r := by
  cases y <;> rfl

@[simp] theorem State.spAt_writeX (i : Fin 31) (w : Word) (l : EL) : (s.writeX i w).spAt l = s.spAt l := by
  cases l <;> rfl
@[simp] theorem State.spAt_setVregs (v : Vector VWord 32) (l : EL) : (s.setVregs v).spAt l = s.spAt l := by
  cases l <;> rfl
@[simp] theorem State.spAt_setPc (a : Word) (l : EL) : (s.setPc a).spAt l = s.spAt l := by
  cases l <;> rfl
@[simp] theorem State.spAt_setPstate (p : Pstate) (l : EL) : (s.setPstate p).spAt l = s.spAt l := by
  cases l <;> rfl
@[simp] theorem State.spAt_setProgram (m : Memory) (t : ProgramText) (l : EL) : (s.setProgram m t).spAt l = s.spAt l := by
  cases l <;> rfl
@[simp] theorem State.spAt_tick (l : EL) : s.tick.spAt l = s.spAt l := by
  cases l <;> rfl

@[simp] theorem State.spAt_setBank (y : TargetEl) (b : Bank) (l : EL) :
    (s.setBank y b).spAt l = if l = y.level then b.sp else s.spAt l := by
  cases y <;> cases l <;> rfl

/-! ### `State.setSpAt` and `State.writeSp` -/

@[simp] theorem State.spAt_setSpAt (k l : EL) (w : Word) :
    (s.setSpAt k w).spAt l = if l = k then w else s.spAt l := by
  cases k <;> cases l <;> rfl

@[simp] theorem State.setSpAt_x (k : EL) (w : Word) : (s.setSpAt k w).x = s.x := by
  cases k <;> rfl
@[simp] theorem State.setSpAt_pc (k : EL) (w : Word) : (s.setSpAt k w).pc = s.pc := by
  cases k <;> rfl
@[simp] theorem State.setSpAt_v (k : EL) (w : Word) : (s.setSpAt k w).v = s.v := by
  cases k <;> rfl
@[simp] theorem State.setSpAt_pstate (k : EL) (w : Word) : (s.setSpAt k w).pstate = s.pstate := by
  cases k <;> rfl
@[simp] theorem State.setSpAt_fp (k : EL) (w : Word) : (s.setSpAt k w).fp = s.fp := by
  cases k <;> rfl
@[simp] theorem State.setSpAt_sys (k : EL) (w : Word) : (s.setSpAt k w).sys = s.sys := by
  cases k <;> rfl
@[simp] theorem State.setSpAt_dbg (k : EL) (w : Word) : (s.setSpAt k w).dbg = s.dbg := by
  cases k <;> rfl
@[simp] theorem State.setSpAt_hidden (k : EL) (w : Word) : (s.setSpAt k w).hidden = s.hidden := by
  cases k <;> rfl
@[simp] theorem State.setSpAt_mem (k : EL) (w : Word) : (s.setSpAt k w).mem = s.mem := by
  cases k <;> rfl
@[simp] theorem State.setSpAt_text (k : EL) (w : Word) : (s.setSpAt k w).text = s.text := by
  cases k <;> rfl
@[simp] theorem State.setSpAt_platform (k : EL) (w : Word) : (s.setSpAt k w).platform = s.platform := by
  cases k <;> rfl
@[simp] theorem State.setSpAt_freeCount (k : EL) (w : Word) : (s.setSpAt k w).freeCount = s.freeCount := by
  cases k <;> rfl
@[simp] theorem State.bank_setSpAt_elr (k : EL) (w : Word) (y : TargetEl) :
    ((s.setSpAt k w).bank y).elr = (s.bank y).elr := by
  cases k <;> cases y <;> rfl
@[simp] theorem State.bank_setSpAt_spsr (k : EL) (w : Word) (y : TargetEl) :
    ((s.setSpAt k w).bank y).spsr = (s.bank y).spsr := by
  cases k <;> cases y <;> rfl
@[simp] theorem State.bank_setSpAt_esr (k : EL) (w : Word) (y : TargetEl) :
    ((s.setSpAt k w).bank y).esr = (s.bank y).esr := by
  cases k <;> cases y <;> rfl
@[simp] theorem State.bank_setSpAt_far (k : EL) (w : Word) (y : TargetEl) :
    ((s.setSpAt k w).bank y).far = (s.bank y).far := by
  cases k <;> cases y <;> rfl
@[simp] theorem State.bank_setSpAt_vbar (k : EL) (w : Word) (y : TargetEl) :
    ((s.setSpAt k w).bank y).vbar = (s.bank y).vbar := by
  cases k <;> cases y <;> rfl
@[simp] theorem State.bank_setSpAt_sctlr (k : EL) (w : Word) (y : TargetEl) :
    ((s.setSpAt k w).bank y).sctlr = (s.bank y).sctlr := by
  cases k <;> cases y <;> rfl

@[simp] theorem State.readX_setSpAt (k : EL) (w : Word) (j : Fin 31) :
    (s.setSpAt k w).readX j = s.readX j := by
  cases k <;> rfl

@[simp] theorem State.readV_setSpAt (k : EL) (w : Word) (r : Fin 32) :
    (s.setSpAt k w).readV r = s.readV r := by
  cases k <;> rfl

@[simp] theorem State.readSp_writeSp (w : Word) : (s.writeSp w).readSp = w := by
  simp [State.readSp, State.writeSp, State.spLevel]

end Sys2Proof.Machine
end

