-- ==== Sys2Proof/Laws/Operands.lean ====
section
/-!
SUPPORT. What each operand operation can do: elements and lanes, the value of an element, one element
read with its checks, the reads of a structure, the base.
-/

namespace Sys2Proof.Machine

open Sys2Proof.Safety

/-! ### Elements and lanes (`10_state.md` R22) -/

theorem getLsbD_lowMask (w n j : Nat) (hj : j < w) :
    (BitVec.ofNat w (2 ^ n - 1)).getLsbD j = decide (j < n) := by
  rw [BitVec.getLsbD_ofNat, Nat.testBit_two_pow_sub_one]
  simp [hj]

/-- Bit `j` of a register with one element replaced. -/
theorem getLsbD_setElem (v : VWord) (e esize : Nat) (x : BitVec 64) (j : Nat) (hj : j < 128) :
    (setElem v e esize x).getLsbD j =
      if e * esize ≤ j ∧ j < e * esize + esize then x.getLsbD (j - e * esize) else v.getLsbD j := by
  simp only [setElem, BitVec.getLsbD_or, BitVec.getLsbD_and, BitVec.getLsbD_not,
    BitVec.getLsbD_shiftLeft, BitVec.getLsbD_setWidth]
  rw [getLsbD_lowMask 128 esize (j - e * esize) (by omega)]
  by_cases low : j < e * esize
  · simp [hj, low, Nat.not_le.2 low]
  · by_cases high : j < e * esize + esize
    · have : j - e * esize < 128 := by omega
      have : j - e * esize < esize := by omega
      simp [*, Nat.le_of_not_lt low]
    · have : ¬j - e * esize < esize := by omega
      simp [*]

/-- Bit `j` of an element. -/
theorem getLsbD_elem (v : VWord) (e esize j : Nat) (hs : esize ≤ 64) :
    (elem v e esize).getLsbD j = (decide (j < esize) && v.getLsbD (e * esize + j)) := by
  simp only [elem, BitVec.getLsbD_setWidth, BitVec.getLsbD_extractLsb']
  by_cases h : j < esize
  · have : j < 64 := by omega
    simp [*]
  · simp [*]

theorem elemBytes_pos (sz : ElemSize) : 0 < elemBytes sz := by cases sz <;> decide

theorem elemBytes_le (sz : ElemSize) : elemBytes sz ≤ 8 := by cases sz <;> decide

theorem lanes_mul_elemBits (sz : ElemSize) : sz.lanes * elemBits sz = 128 := by cases sz <;> decide

/-- A lane of the range lies within the register. -/
theorem lane_within {sz : ElemSize} {index : Nat} (h : index < sz.lanes) :
    index * elemBits sz + elemBits sz ≤ 128 := by
  rw [← lanes_mul_elemBits sz, ← Nat.succ_mul]
  exact Nat.mul_le_mul_right _ h

/-! ### The register list (`30_encoding.md` R67) -/

/-- What a list of four lanes writes: register `k` of the list has its lane replaced by the `k`-th value,
and every other register is as before. -/
theorem writeLanes_four (v : Vector VWord 32) (t : Fin 32) (index : Nat) (sz : ElemSize)
    (a b c d : BitVec 64) :
    (∀ k, k < 4 → (writeLanes v t index sz [a, b, c, d])[listReg t k] =
      setElem v[listReg t k] index (elemBits sz) ([a, b, c, d].getD k 0#64)) ∧
    ∀ r : Fin 32, (∀ k, k < 4 → r ≠ listReg t k) →
      (writeLanes v t index sz [a, b, c, d])[r] = v[r] := by
  have l0 : listReg t 0 = t := by revert t; decide
  have l1 : listReg t 1 = t + 1 := by revert t; decide
  have l2 : listReg t 2 = t + 1 + 1 := by revert t; decide
  have l3 : listReg t 3 = t + 1 + 1 + 1 := by revert t; decide
  have n01 : t.val ≠ (t + 1).val := by revert t; decide
  have n02 : t.val ≠ (t + 1 + 1).val := by revert t; decide
  have n03 : t.val ≠ (t + 1 + 1 + 1).val := by revert t; decide
  have n12 : (t + 1).val ≠ (t + 1 + 1).val := by revert t; decide
  have n13 : (t + 1).val ≠ (t + 1 + 1 + 1).val := by revert t; decide
  have n23 : (t + 1 + 1).val ≠ (t + 1 + 1 + 1).val := by revert t; decide
  simp only [writeLanes]
  constructor
  · intro k hk
    interval_cases k <;>
      simp only [l0, l1, l2, l3, Fin.getElem_fin, Vector.getElem_set, n01, n02, n03, n12, n13, n23,
        n01.symm, n02.symm, n03.symm, n12.symm, n13.symm, n23.symm, if_true, if_false] <;> rfl
  · intro r hr
    have e0 : t.val ≠ r.val := fun h => hr 0 (by omega) ((Fin.ext h.symm).trans l0.symm)
    have e1 : (t + 1).val ≠ r.val := fun h => hr 1 (by omega) ((Fin.ext h.symm).trans l1.symm)
    have e2 : (t + 1 + 1).val ≠ r.val := fun h => hr 2 (by omega) ((Fin.ext h.symm).trans l2.symm)
    have e3 : (t + 1 + 1 + 1).val ≠ r.val := fun h => hr 3 (by omega) ((Fin.ext h.symm).trans l3.symm)
    simp [Vector.getElem_set, e0, e1, e2, e3]

/-- Byte `b` of a lane that has been written is byte `b` of the value. -/
theorem laneByte_setElem (v : VWord) (index : Nat) (sz : ElemSize) (b : Nat) (x : BitVec 64)
    (hi : index < sz.lanes) (hb : b < elemBytes sz) :
    laneByte (setElem v index (elemBits sz) x) index sz b = x.extractLsb' (8 * b) 8 := by
  have hw := lane_within hi
  have hm : index * elemBits sz = 8 * (index * elemBytes sz) := by
    rw [elemBits, Nat.mul_left_comm]
  refine BitVec.eq_of_getLsbD_eq fun j hj => ?_
  have he : elemBits sz = 8 * elemBytes sz := rfl
  rw [laneByte, BitVec.getLsbD_extractLsb', BitVec.getLsbD_extractLsb',
    getLsbD_setElem _ _ _ _ _ (by omega), if_pos (by omega)]
  congr 2
  omega

/-- A list of four lanes written changes no bit outside them (R81). -/
theorem otherBitsKept_writeLanes (s s' : State) (t : Fin 32) (index : Nat) (sz : ElemSize)
    (a b c d : BitVec 64) (h : s'.v = writeLanes s.v t index sz [a, b, c, d]) :
    OtherBitsKept s s' t index sz := by
  obtain ⟨written, others⟩ := writeLanes_four s.v t index sz a b c d
  constructor
  · intro k hk j hj hout
    simp only [State.readV, h]
    rw [written k hk, getLsbD_setElem _ _ _ _ _ hj, if_neg hout]
  · intro r hr
    simp only [State.readV, h]
    exact others r hr

/-! ### The value of an element (R43, R44) -/

/-- Bit `j` of bytes joined: bit `j % 8` of byte `j / 8`. -/
theorem getLsbD_joinBytes (us : List Byte) (j : Nat) (hj : j < 64) :
    (joinBytes us).getLsbD j = (us.getD (j / 8) 0#8).getLsbD (j % 8) := by
  induction us generalizing j with
  | nil => simp [joinBytes]
  | cons u us ih =>
    simp only [joinBytes, BitVec.getLsbD_or, BitVec.getLsbD_setWidth, BitVec.getLsbD_shiftLeft]
    by_cases low : j < 8
    · have h8 : j / 8 = 0 := by omega
      have hm : j % 8 = j := by omega
      simp [hj, low, h8, hm]
    · have hu : u.getLsbD j = false := BitVec.getLsbD_of_ge _ _ (by omega)
      rw [ih (j - 8) (by omega)]
      have h8 : j / 8 = (j - 8) / 8 + 1 := by omega
      have hm : j % 8 = (j - 8) % 8 := by omega
      rw [h8, hm]
      simp [hu, hj, low]

/-- Byte `k` of bytes joined. -/
theorem extractLsb'_joinBytes (us : List Byte) (k : Nat) (hk : k < 8) :
    (joinBytes us).extractLsb' (8 * k) 8 = us.getD k 0#8 := by
  refine BitVec.eq_of_getLsbD_eq fun j hj => ?_
  rw [BitVec.getLsbD_extractLsb', getLsbD_joinBytes _ _ (by omega)]
  have h8 : (8 * k + j) / 8 = k := by omega
  have hm : (8 * k + j) % 8 = j := by omega
  simp [h8, hm, hj]

theorem joinBytes_toNat_lt (us : List Byte) :
    (joinBytes us).toNat < 2 ^ (8 * us.length) := by
  refine Nat.lt_pow_two_of_testBit _ fun j hj => ?_
  rw [BitVec.testBit_toNat]
  by_cases h64 : j < 64
  · rw [getLsbD_joinBytes _ _ h64, List.getD_eq_default _ _ (by omega)]
    simp
  · exact BitVec.getLsbD_of_ge _ _ (by omega)

theorem byteAddresses_length (a : Word) (n : Nat) : (byteAddresses a n).length = n := by
  simp [byteAddresses]

theorem byteAddresses_getElem (a : Word) (n k : Nat) (hk : k < (byteAddresses a n).length) :
    (byteAddresses a n)[k] = a + BitVec.ofNat 64 k := by
  simp [byteAddresses]

/-- Byte `k` of an element, counted from the least significant, by the data byte order. -/
theorem elementValue_byte (s : State) (a : Word) (sz : ElemSize) (k : Nat) (hk : k < elemBytes sz) :
    (elementValue s a sz).extractLsb' (8 * k) 8 =
      s.dataByte (a + BitVec.ofNat 64 (if s.bigEndianData then elemBytes sz - 1 - k else k)) := by
  have h8 := elemBytes_le sz
  have hl := byteAddresses_length a (elemBytes sz)
  rw [elementValue, extractLsb'_joinBytes _ _ (by omega)]
  split
  · rw [List.getD_eq_getElem _ _ (by simp [hl, hk])]
    simp [List.getElem_reverse, byteAddresses_getElem, hl]
  · rw [List.getD_eq_getElem _ _ (by simp [hl, hk])]
    simp [byteAddresses_getElem]

theorem elementValue_toNat_lt (s : State) (a : Word) (sz : ElemSize) :
    (elementValue s a sz).toNat < 2 ^ elemBits sz := by
  have hl := byteAddresses_length a (elemBytes sz)
  have := joinBytes_toNat_lt (if s.bigEndianData then
    ((byteAddresses a (elemBytes sz)).map s.dataByte).reverse
    else (byteAddresses a (elemBytes sz)).map s.dataByte)
  have h2 : (if s.bigEndianData then ((byteAddresses a (elemBytes sz)).map s.dataByte).reverse
      else (byteAddresses a (elemBytes sz)).map s.dataByte).length = elemBytes sz := by
    split <;> simp [hl]
  rw [h2] at this
  exact this

/-! ### One element read (R47, R48, R50, R51) -/

/-- No address of the bytes of an element has a property. -/
theorem find_byteAddresses_none (p : Word → Bool) (a : Word) (n : Nat) :
    (byteAddresses a n).find? p = none ↔ ∀ k, k < n → p (a + BitVec.ofNat 64 k) = false := by
  simp [byteAddresses]

/-- The lowest address of the bytes of an element that has a property. -/
theorem find_byteAddresses_some (p : Word → Bool) (a : Word) (n : Nat) (b : Word) :
    (byteAddresses a n).find? p = some b ↔
      ∃ k, k < n ∧ b = a + BitVec.ofNat 64 k ∧ p b = true ∧
        ∀ j, j < k → p (a + BitVec.ofNat 64 j) = false := by
  rw [List.find?_eq_some_iff_getElem]
  have hl := byteAddresses_length a n
  constructor
  · rintro ⟨hp, k, hk, hb, hj⟩
    rw [byteAddresses_getElem] at hb
    refine ⟨k, by omega, hb.symm, hp, fun j hjk => ?_⟩
    have := hj j hjk
    rw [byteAddresses_getElem] at this
    simpa using this
  · rintro ⟨k, hk, rfl, hp, hj⟩
    refine ⟨hp, k, by omega, byteAddresses_getElem .., fun j hjk => ?_⟩
    rw [byteAddresses_getElem, hj j hjk]
    rfl

/-- When an element read succeeds, and what it returns. -/
theorem memRead_eq_ok_iff (s : State) (a : Word) (sz : ElemSize) (x : BitVec 64) :
    memRead s a sz = .ok x ↔
      misaligned s a sz = false ∧
      (∀ k, k < elemBytes sz → ByteReadable s a k ∧ ¬ByteDevice s a k) ∧
      x = elementValue s a sz := by
  unfold memRead
  split
  · next h => simp [h]
  · next h =>
    have h' : misaligned s a sz = false := by simpa using h
    split
    · next b hb =>
      obtain ⟨k, hk, rfl, hp, -⟩ := (find_byteAddresses_some _ _ _ _).1 hb
      simp only [reduceCtorEq, false_iff, not_and]
      intro _ hall
      simp [(hall k hk).1] at hp
    · next hr =>
      have readable := (find_byteAddresses_none _ _ _).1 hr
      split
      · next b hb =>
        obtain ⟨k, hk, rfl, hp, -⟩ := (find_byteAddresses_some _ _ _ _).1 hb
        simp only [reduceCtorEq, false_iff, not_and]
        intro _ hall
        exact absurd hp (hall k hk).2
      · next hd =>
        have device := (find_byteAddresses_none _ _ _).1 hd
        simp only [Except.ok.injEq, h', true_and]
        constructor
        · rintro rfl
          exact ⟨fun k hk => ⟨by simpa using readable k hk, by simp [device k hk]⟩, rfl⟩
        · rintro ⟨-, rfl⟩
          rfl

/-- When an element read ends early, and in what: misaligned, else the lowest unreadable byte, else the
lowest device byte. -/
theorem memRead_eq_error_iff (s : State) (a : Word) (sz : ElemSize) (e : Stop) :
    memRead s a sz = .error e ↔
      (misaligned s a sz = true ∧ e = .raise (.dataAbortAlignment a)) ∨
      (misaligned s a sz = false ∧ ∃ k, k < elemBytes sz ∧ ¬ByteReadable s a k ∧
        (∀ j, j < k → ByteReadable s a j) ∧
        e = .raise (.dataAbortOther (a + BitVec.ofNat 64 k))) ∨
      (misaligned s a sz = false ∧ (∀ k, k < elemBytes sz → ByteReadable s a k) ∧
        ∃ k, k < elemBytes sz ∧ ByteDevice s a k ∧ (∀ j, j < k → ¬ByteDevice s a j) ∧
          e = .refuse (.deviceMemory (a + BitVec.ofNat 64 k))) := by
  unfold memRead
  split
  · next h =>
    constructor
    · intro he
      cases he
      exact .inl ⟨h, rfl⟩
    · rintro (⟨-, rfl⟩ | ⟨h', -⟩ | ⟨h', -⟩)
      · rfl
      · exact absurd h (by simp [h'])
      · exact absurd h (by simp [h'])
  · next h =>
    have h' : misaligned s a sz = false := by simpa using h
    simp only [h', Bool.false_eq_true, false_and, false_or, true_and]
    split
    · next b hb =>
      obtain ⟨k, hk, rfl, hp, hj⟩ := (find_byteAddresses_some _ _ _ _).1 hb
      simp only [Bool.not_eq_eq_eq_not, Bool.not_true, Bool.not_false] at hp hj
      constructor
      · intro he
        cases he
        exact .inl ⟨k, hk, by simp [hp], hj, rfl⟩
      · rintro (⟨k', hk', hp', hj', rfl⟩ | ⟨hall, -⟩)
        · obtain hlt | rfl | hlt := lt_trichotomy k k'
          · exact absurd (hj' k hlt) (by simp [hp])
          · rfl
          · exact absurd (hj k' hlt) hp'
        · exact absurd (hall k hk) (by simp [hp])
    · next hr =>
      have readable := (find_byteAddresses_none _ _ _).1 hr
      simp only [Bool.not_eq_eq_eq_not, Bool.not_false] at readable
      split
      · next b hb =>
        obtain ⟨k, hk, rfl, hp, hj⟩ := (find_byteAddresses_some _ _ _ _).1 hb
        constructor
        · intro he
          cases he
          exact .inr ⟨readable, k, hk, hp, fun j h => by simp [hj j h], rfl⟩
        · rintro (⟨k', hk', hp', -⟩ | ⟨-, k', hk', hp', hj', rfl⟩)
          · exact absurd (readable k' hk') hp'
          · obtain hlt | rfl | hlt := lt_trichotomy k k'
            · exact absurd hp (hj' k hlt)
            · rfl
            · exact absurd hp' (by simp [hj k' hlt])
      · next hd =>
        have device := (find_byteAddresses_none _ _ _).1 hd
        simp only [reduceCtorEq, false_iff, not_or, not_exists, not_and]
        exact ⟨fun k hk hp => absurd (readable k hk) hp,
          fun _ k hk hp => absurd hp (by simp [device k hk])⟩

/-! ### The four reads of a structure (R46, R47) -/

/-- The four reads succeed exactly when each does, and return their values in order. -/
theorem readStructure_eq_ok_iff (s : State) (base : Word) (sz : ElemSize) (es : List (BitVec 64)) :
    readStructure s base sz = .ok es ↔
      ∃ a b c d, es = [a, b, c, d] ∧ ∀ k, k < 4 →
        memRead s (elementAddress base sz k) sz = .ok ([a, b, c, d].getD k 0#64) := by
  simp only [readStructure, readElements]
  constructor
  · intro h
    cases h0 : memRead s (elementAddress base sz 0) sz with
    | error e => simp [h0] at h
    | ok a =>
      cases h1 : memRead s (elementAddress base sz 1) sz with
      | error e => simp [h0, h1] at h
      | ok b =>
        cases h2 : memRead s (elementAddress base sz 2) sz with
        | error e => simp [h0, h1, h2] at h
        | ok c =>
          cases h3 : memRead s (elementAddress base sz 3) sz with
          | error e => simp [h0, h1, h2, h3] at h
          | ok d =>
            simp only [h0, h1, h2, h3, Except.ok.injEq] at h
            refine ⟨a, b, c, d, h.symm, fun k hk => ?_⟩
            interval_cases k <;> assumption
  · rintro ⟨a, b, c, d, rfl, h⟩
    have h0 := h 0 (by omega)
    have h1 := h 1 (by omega)
    have h2 := h 2 (by omega)
    have h3 := h 3 (by omega)
    simp only [List.getD_cons_zero, List.getD_cons_succ] at h0 h1 h2 h3
    simp only [h0, h1, h2, h3]

/-- The four reads end in what the first failing one ends in. -/
theorem readStructure_eq_error_iff (s : State) (base : Word) (sz : ElemSize) (e : Stop) :
    readStructure s base sz = .error e ↔
      ∃ k, k < 4 ∧ memRead s (elementAddress base sz k) sz = .error e ∧
        ∀ j, j < k → ∃ x, memRead s (elementAddress base sz j) sz = .ok x := by
  simp only [readStructure, readElements]
  constructor
  · intro h
    cases h0 : memRead s (elementAddress base sz 0) sz with
    | error e0 => 
      simp only [h0, Except.error.injEq] at h
      subst h
      exact ⟨0, by omega, h0, fun j hj => absurd hj (by omega)⟩
    | ok a =>
      cases h1 : memRead s (elementAddress base sz 1) sz with
      | error e1 => 
        simp only [h0, h1, Except.error.injEq] at h
        subst h
        refine ⟨1, by omega, h1, fun j hj => ?_⟩
        interval_cases j
        exact ⟨a, h0⟩
      | ok b =>
        cases h2 : memRead s (elementAddress base sz 2) sz with
        | error e2 => 
          simp only [h0, h1, h2, Except.error.injEq] at h
          subst h
          refine ⟨2, by omega, h2, fun j hj => ?_⟩
          interval_cases j
          · exact ⟨a, h0⟩
          · exact ⟨b, h1⟩
        | ok c =>
          cases h3 : memRead s (elementAddress base sz 3) sz with
          | error e3 => 
            simp only [h0, h1, h2, h3, Except.error.injEq] at h
            subst h
            refine ⟨3, by omega, h3, fun j hj => ?_⟩
            interval_cases j
            · exact ⟨a, h0⟩
            · exact ⟨b, h1⟩
            · exact ⟨c, h2⟩
          | ok d => simp [h0, h1, h2, h3] at h
  · rintro ⟨k, hk, he, h⟩
    interval_cases k
    · simp only [he]
    · obtain ⟨a, h0⟩ := h 0 (by omega)
      simp only [h0, he]
    · obtain ⟨a, h0⟩ := h 0 (by omega)
      obtain ⟨b, h1⟩ := h 1 (by omega)
      simp only [h0, h1, he]
    · obtain ⟨a, h0⟩ := h 0 (by omega)
      obtain ⟨b, h1⟩ := h 1 (by omega)
      obtain ⟨c, h2⟩ := h 2 (by omega)
      simp only [h0, h1, h2, he]

theorem elementAddress_add (base : Word) (sz : ElemSize) (k b : Nat) :
    elementAddress base sz k + BitVec.ofNat 64 b = base + BitVec.ofNat 64 (k * elemBytes sz + b) := by
  simp only [elementAddress, BitVec.ofNat_add, BitVec.add_assoc]

/-- All elements of a structure are aligned when the base is (R48). -/
theorem misaligned_elementAddress (s : State) (base : Word) (sz : ElemSize) (k : Nat) :
    misaligned s (elementAddress base sz k) sz = misaligned s base sz := by
  have h : (elementAddress base sz k).toNat % elemBytes sz = base.toNat % elemBytes sz := by
    simp only [elementAddress, BitVec.toNat_add, BitVec.toNat_ofNat]
    cases sz <;> simp only [elemBytes] <;> omega
  simp only [misaligned, h]

theorem misaligned_eq_false_iff (s : State) (a : Word) (sz : ElemSize) :
    misaligned s a sz = false ↔ DataAligned s a sz := by
  simp only [misaligned, DataAligned]
  cases s.alignCheck <;> simp

/-! ### The base (R49) -/

/-- What reading the base gives: the base value, or the SP alignment fault. -/
theorem readBase_eq (s : State) (n : XSp) :
    readBase s n =
      if n = .sp ∧ s.readSp.toNat % 16 ≠ 0 then .error (.raise .spAlignmentFault)
      else .ok (baseValue s n) := by
  cases n with
  | x i => simp [readBase, baseValue]
  | sp => simp [readBase, baseValue]

end Sys2Proof.Machine
end

