-- ==== Sys2Proof/Laws/Ops.lean ====
section
/-!
SUPPORT. What taking an exception and returning from one can do, field by field (`60_exceptions.md` R102,
R104), and which updates the controls of a level do not see.
-/

namespace Sys2Proof.Machine

open Sys2Proof.Safety

variable (s : State) (e : SyncException)

/-- The Security state of R27, by whether EL3 is implemented. -/
theorem State.secure_eq :
    s.secure = if s.platform.hasEl3 then decide (s.pstate.el = .el3) || !s.sys.scrEl3.getLsbD 0
      else s.platform.secureOnly && !s.platform.hasEl2 := by
  unfold State.secure State.lowerSecure
  cases s.platform.hasEl3 <;> simp

/-! ### Taking a synchronous exception -/

@[simp] theorem takeSync_pstate :
    (takeSync e s).pstate = handlerPstate (exceptionTarget e s) s.pstate := rfl

@[simp] theorem takeSync_pc :
    (takeSync e s).pc =
      (s.bank (exceptionTarget e s)).vbar +
        vectorOffset (exceptionTarget e s) s.pstate .synchronous := rfl

/-- The registers of the target level after the entry; those of another level are as before. -/
theorem takeSync_bank (y : TargetEl) :
    (takeSync e s).bank y =
      if y = exceptionTarget e s then
        { s.bank y with
          spsr := spsrOfPstate s.pstate
          elr := s.pc
          esr := syndrome e s
          far := (faultAddress e s).getD (s.bank y).far }
      else s.bank y := by
  simp only [takeSync, takeException, State.bank_tick, State.bank_setPc, State.bank_setPstate,
    State.bank_setBank]
  split
  · next h => subst h; rfl
  · rfl

@[simp] theorem takeSync_bank_vbar (y : TargetEl) :
    ((takeSync e s).bank y).vbar = (s.bank y).vbar := by
  rw [takeSync_bank]; split <;> rfl

@[simp] theorem takeSync_bank_sctlr (y : TargetEl) :
    ((takeSync e s).bank y).sctlr = (s.bank y).sctlr := by
  rw [takeSync_bank]; split <;> rfl

@[simp] theorem takeSync_x : (takeSync e s).x = s.x := by
  simp [takeSync, takeException]

@[simp] theorem takeSync_v : (takeSync e s).v = s.v := by
  simp [takeSync, takeException]

@[simp] theorem takeSync_fp : (takeSync e s).fp = s.fp := by
  simp [takeSync, takeException]

@[simp] theorem takeSync_sys : (takeSync e s).sys = s.sys := by
  simp [takeSync, takeException]

@[simp] theorem takeSync_dbg : (takeSync e s).dbg = s.dbg := by
  simp [takeSync, takeException]

@[simp] theorem takeSync_hidden : (takeSync e s).hidden = s.hidden := by
  simp [takeSync, takeException]

@[simp] theorem takeSync_mem : (takeSync e s).mem = s.mem := by
  simp [takeSync, takeException]

@[simp] theorem takeSync_text : (takeSync e s).text = s.text := by
  simp [takeSync, takeException]

@[simp] theorem takeSync_platform : (takeSync e s).platform = s.platform := by
  simp [takeSync, takeException]

@[simp] theorem takeSync_readX (j : Fin 31) : (takeSync e s).readX j = s.readX j := by
  simp [State.readX]

@[simp] theorem takeSync_readV (r : Fin 32) : (takeSync e s).readV r = s.readV r := by
  simp [State.readV]

theorem State.bank_sp (y : TargetEl) : (s.bank y).sp = s.spAt y.level := by
  cases y <;> rfl

@[simp] theorem takeSync_spAt (l : EL) : (takeSync e s).spAt l = s.spAt l := by
  simp only [takeSync, takeException, State.spAt_tick, State.spAt_setPc, State.spAt_setPstate,
    State.spAt_setBank]
  split
  · next h => rw [h, ← State.bank_sp]
  · rfl

/-- The exception class, the target and the fault address do not see the vector registers. -/
@[simp] theorem exceptionTarget_setVregs (v : Vector VWord 32) :
    exceptionTarget e (s.setVregs v) = exceptionTarget e s := rfl

/-- An exception is never taken to a lower level (R96, R101), the SIMD trap apart, whose level is its
own. -/
theorem exceptionTarget_rank (h : ∀ x, e ≠ .simdAccessTrap x) :
    elRank s.pstate.el ≤ elRank (exceptionTarget e s).level := by
  have d : elRank s.pstate.el ≤ elRank (defaultTarget s).level := by
    unfold defaultTarget
    split
    · next h => rw [h]; exact Nat.zero_le _
    all_goals next h => rw [h]; decide
  cases e with
  | simdAccessTrap x => exact absurd rfl (h x)
  | _ => exact d

/-- A level that takes an exception is implemented if the current one is, the SIMD trap apart. -/
theorem exceptionTarget_implemented (h : ∀ x, e ≠ .simdAccessTrap x)
    (hel : haveEl s.platform s.pstate.el = true) :
    haveEl s.platform (exceptionTarget e s).level = true := by
  have d : haveEl s.platform (defaultTarget s).level = true := by
    unfold defaultTarget
    split
    · next h0 =>
      split
      · next hc =>
        simp only [State.el2Applies, Bool.and_eq_true] at hc
        exact hc.1.1
      · rfl
    all_goals next h0 => rw [h0] at hel; exact hel
  cases e with
  | simdAccessTrap x => exact absurd rfl (h x)
  | _ => exact d

/-- Taking the exception of a fault answers a next state from a completed instruction or from a fault. -/
theorem SpecOutcome.taken_eq_next_iff (o : SpecOutcome) (s' : State) :
    o.taken = .next s' ↔ o = .next s' ∨ ∃ e s₁, o = .fault e s₁ ∧ s' = takeSync e s₁ := by
  cases o <;> simp [SpecOutcome.taken, eq_comm]

/-- Taking the exception of a fault refuses what the outcome refuses. -/
theorem SpecOutcome.taken_eq_refused_iff (o : SpecOutcome) (r : Refusal) :
    o.taken = .refused r ↔ o = .refused r := by
  cases o <;> simp [SpecOutcome.taken]

/-! ### The Process State -/

/-- The bits of `spsrOfPstate` (R29). -/
theorem getLsbD_spsrOfPstate (p : Pstate) (j : Nat) (hj : j < 32) :
    (spsrOfPstate p).getLsbD j =
      if j = 31 then p.n else if j = 30 then p.z else if j = 29 then p.c else if j = 28 then p.v
      else if j = 21 then p.ss else if j = 20 then p.il
      else if j = 9 then p.d else if j = 8 then p.a else if j = 7 then p.i else if j = 6 then p.f
      else if j = 4 then p.nRW else if j = 3 then (elBits p.el).getLsbD 1
      else if j = 2 then (elBits p.el).getLsbD 0 else if j = 0 then p.spSel else false := by
  simp only [spsrOfPstate, nzcvBits, daifBits, bit, BitVec.getLsbD_append, BitVec.getLsbD_ofBool]
  interval_cases j <;> simp

theorem elOfBits_elBits (l : EL) : elOfBits (elBits l) = l := by cases l <;> decide

theorem elBits_spsrOfPstate (p : Pstate) : (spsrOfPstate p).extractLsb' 2 2 = elBits p.el := by
  refine BitVec.eq_of_getLsbD_eq fun j hj => ?_
  rw [BitVec.getLsbD_extractLsb', getLsbD_spsrOfPstate _ _ (by omega)]
  interval_cases j <;> simp

/-- Reading the layout of `SPSR_ELx` back gives the PSTATE it came from, into any PSTATE with the same
UAO and PAN. -/
theorem pstateOfSpsr_spsrOfPstate (old p : Pstate) (hu : old.uao = p.uao) (hp : old.pan = p.pan) :
    pstateOfSpsr old (spsrOfPstate p) = p := by
  simp only [pstateOfSpsr, elBits_spsrOfPstate, elOfBits_elBits, hu, hp]
  simp [getLsbD_spsrOfPstate, -BitVec.getLsbD_eq_getElem]

theorem elRank_elOfBits (b : BitVec 2) : elRank (elOfBits b) = b.toNat := by
  revert b; decide

/-- The PSTATE read from a saved status is what the status shows, where bit 1 has its reserved value. -/
theorem spsrShows_pstateOfSpsr (old : Pstate) (r : BitVec 32) (h : r.getLsbD 1 = false) :
    SpsrShows r (pstateOfSpsr old r) :=
  ⟨rfl, rfl, rfl, rfl, rfl, rfl, rfl, rfl, rfl, rfl, rfl, (elRank_elOfBits _).symm, h, rfl⟩

/-- The status an entry saves shows the PSTATE it came from. -/
theorem spsrShows_spsrOfPstate (p : Pstate) : SpsrShows (spsrOfPstate p) p := by
  have h := spsrShows_pstateOfSpsr p (spsrOfPstate p) (by
    rw [getLsbD_spsrOfPstate _ _ (by decide)]; rfl)
  rwa [pstateOfSpsr_spsrOfPstate p p rfl rfl] at h

/-! ### Returning from an exception (R104) -/

/-- What a return does above EL0. -/
theorem exceptionReturn_eq (x : TargetEl) (h : s.pstate.el = x.level) :
    exceptionReturn s =
      if (s.bank x).spsr.getLsbD 4 then .refused .aarch32State
      else
        .next ((s.setPstate
          (if legalReturn (s.bank x).spsr s then pstateOfSpsr s.pstate (s.bank x).spsr
           else illegalReturnPstate s.pstate (s.bank x).spsr)).setPc (s.bank x).elr) := by
  have ht : targetOfLevel s.pstate.el = some x := by rw [h]; cases x <;> rfl
  simp only [exceptionReturn, ht]

/-- What a return does at EL0. -/
theorem exceptionReturn_el0 (h : s.pstate.el = .el0) :
    exceptionReturn s = .next (takeSync .undefinedInstruction s) := by
  have ht : targetOfLevel s.pstate.el = none := by rw [h]; rfl
  simp only [exceptionReturn, ht]

/-- The mode a legal AArch64 PSTATE leaves in `SPSR_ELx` is a known one. -/
theorem knownMode_spsrOfPstate (p : Pstate) (h : p.el = .el0 → p.spSel = false) :
    knownMode (spsrOfPstate p) = true := by
  simp only [knownMode, elBits_spsrOfPstate, getLsbD_spsrOfPstate _ _ (show 0 < 32 by decide),
    getLsbD_spsrOfPstate _ _ (show 1 < 32 by decide)]
  cases hel : p.el
  · simp [h hel]
  all_goals simp [elBits]

end Sys2Proof.Machine
end

