-- ==== Sys2Proof/Laws/Ld4.lean ====
section
/-!
SUPPORT. What the twelve forms can do: all are the shared operation of `40_ld4_single_structure.md` R78 on
their operands; when its checks pass; the state a completed form leaves, field by field; and how a form
that does not complete ends.
-/

namespace Sys2Proof.Machine

open Sys2Proof.Safety

variable (s : State)

/-- Every form is the shared operation on its operands, with the exception of a fault taken. -/
theorem exec_eq (i : Instr) : exec i s = (formOutcome i s).taken := by
  cases i <;> rfl

/-! ### The SIMD check (`60_exceptions.md` R99) -/

theorem simdTrap_eq_none_iff :
    simdTrap s = none ↔
      fpenDisables s = false ∧
      (s.platform.hasEl2 = true → s.secure = false → s.pstate.el ≠ .el3 → s.tfpEl2 = false) ∧
      (s.platform.hasEl3 = true → s.tfpEl3 = false) := by
  have he : elRank s.pstate.el ≤ elRank .el2 ↔ s.pstate.el ≠ .el3 := by
    cases s.pstate.el <;> decide
  unfold simdTrap State.el2Applies
  simp only [haveEl, Bool.and_eq_true, decide_eq_true_eq, Bool.not_eq_true', he]
  split
  · next hd => split <;> simp [hd]
  · next hd =>
    split
    · next h2 =>
      simp only [reduceCtorEq, false_iff]
      exact fun h => by simp [h.2.1 h2.1.1.1 h2.1.1.2 h2.1.2] at h2
    · next h2 =>
      split
      · next h3 =>
        simp only [reduceCtorEq, false_iff]
        exact fun h => by simp [h.2.2 h3.1] at h3
      · next h3 =>
        simp only [true_iff]
        refine ⟨by simpa using hd, fun a b c => ?_, fun a => ?_⟩
        · by_contra h
          exact h2 ⟨⟨⟨a, b⟩, c⟩, by simpa using h⟩
        · by_contra h
          exact h3 ⟨a, by simpa using h⟩

theorem fpenDisables_eq_false_iff :
    fpenDisables s = false ↔
      (s.pstate.el = .el0 → s.fpen = 0b11#2) ∧
      (s.pstate.el = .el1 → s.fpen = 0b01#2 ∨ s.fpen = 0b11#2) := by
  have h : ∀ f : BitVec 2, (¬f = 0b00#2 ∧ ¬f = 0b10#2) ↔ (f = 0b01#2 ∨ f = 0b11#2) := by decide
  unfold fpenDisables
  split <;> next hel => simp [hel, h]

/-- The SIMD check passes exactly when Advanced SIMD is enabled. -/
theorem checkSimdEnabled_eq_ok_iff : checkSimdEnabled s = .ok () ↔ SimdEnabled s := by
  have hn := simdTrap_eq_none_iff s
  rw [fpenDisables_eq_false_iff] at hn
  unfold checkSimdEnabled SimdEnabled
  cases ht : simdTrap s with
  | none =>
    have := hn.1 ht
    cases s.platform.advSimd <;> cases hh : s.platform.hasEl2 <;> cases s.e2h <;>
      simp_all [haveEl]
  | some e =>
    have : ¬_ := fun h => absurd (hn.2 h) (by simp [ht])
    constructor
    · intro h
      split at h
      · cases h
      · split at h <;> cases h
    · rintro ⟨-, -, h0, h1, h2, h3⟩
      exact absurd ⟨⟨h0, h1⟩, h2, h3⟩ this

/-- How the SIMD check ends when it does not pass. -/
theorem checkSimdEnabled_error {e : Stop} (h : checkSimdEnabled s = .error e) :
    e = .refuse .hostExtensionsEnabled ∨ e = .raise .undefinedInstruction ∨
      ∃ x, e = .raise (.simdAccessTrap x) ∧ elRank s.pstate.el ≤ elRank x.level ∧
        haveEl s.platform x.level = true ∧ (x = .el2 → s.secure = false) := by
  unfold checkSimdEnabled at h
  split at h
  · cases h; exact .inr (.inl rfl)
  · split at h
    · cases h; exact .inl rfl
    · split at h
      · next e' ht =>
        cases h
        unfold simdTrap at ht
        split at ht
        · next hd =>
          have low : elRank s.pstate.el ≤ 1 := by
            unfold fpenDisables at hd
            split at hd <;> first | (next hel => rw [hel]; decide) | cases hd
          split at ht <;> cases ht
          · exact .inr (.inl rfl)
          · exact .inr (.inr ⟨.el1, rfl, low, rfl, fun h => by cases h⟩)
        · split at ht
          · next h2 =>
            cases ht
            simp only [State.el2Applies, Bool.and_eq_true, decide_eq_true_eq,
              Bool.not_eq_true'] at h2
            exact .inr (.inr ⟨.el2, rfl, h2.1.2, h2.1.1.1, fun _ => h2.1.1.2⟩)
          · split at ht
            · next h3 =>
              cases ht
              simp only [Bool.and_eq_true] at h3
              refine .inr (.inr ⟨.el3, rfl, ?_, h3.1, fun h => by cases h⟩)
              cases s.pstate.el <;> decide
            · cases ht
      · cases h

/-! ### The checks and reads of a form (R82) -/

/-- The values of the four elements at a base. -/
def elements (base : Word) (sz : ElemSize) : List (BitVec 64) :=
  [elementValue s (elementAddress base sz 0) sz, elementValue s (elementAddress base sz 1) sz,
   elementValue s (elementAddress base sz 2) sz, elementValue s (elementAddress base sz 3) sz]

theorem elements_getD (base : Word) (sz : ElemSize) (k : Nat) (hk : k < 4) :
    (elements s base sz).getD k 0#64 = elementValue s (elementAddress base sz k) sz := by
  interval_cases k <;> rfl

theorem readStructure_eq_ok (base : Word) (sz : ElemSize) (es : List (BitVec 64)) :
    readStructure s base sz = .ok es ↔
      DataAligned s base sz ∧ StructureReadable s base sz ∧ es = elements s base sz := by
  rw [readStructure_eq_ok_iff]
  have hpos := elemBytes_pos sz
  constructor
  · rintro ⟨a, b, c, d, rfl, h⟩
    have key : ∀ k, k < 4 → _ := fun k hk => (memRead_eq_ok_iff _ _ _ _).1 (h k hk)
    refine ⟨?_, ?_, ?_⟩
    · have := (key 0 (by omega)).1
      rwa [misaligned_elementAddress, misaligned_eq_false_iff] at this
    · intro k hk
      have hq : k / elemBytes sz < 4 := Nat.div_lt_of_lt_mul (by rwa [Nat.mul_comm])
      have := (key _ hq).2.1 (k % elemBytes sz) (Nat.mod_lt _ hpos)
      simp only [ByteReadable, ByteDevice, elementAddress_add, Nat.div_add_mod'] at this
      exact this
    · have e0 := (key 0 (by omega)).2.2
      have e1 := (key 1 (by omega)).2.2
      have e2 := (key 2 (by omega)).2.2
      have e3 := (key 3 (by omega)).2.2
      simp only [List.getD_cons_zero, List.getD_cons_succ] at e0 e1 e2 e3
      rw [e0, e1, e2, e3]
      rfl
  · rintro ⟨ha, hr, rfl⟩
    refine ⟨_, _, _, _, rfl, fun k hk => ?_⟩
    rw [memRead_eq_ok_iff]
    refine ⟨by rwa [misaligned_elementAddress, misaligned_eq_false_iff], fun b hb => ?_,
      elements_getD s base sz k hk⟩
    have : k * elemBytes sz + b < 4 * elemBytes sz := by
      have : (k + 1) * elemBytes sz ≤ 4 * elemBytes sz := Nat.mul_le_mul_right _ (by omega)
      rw [Nat.succ_mul] at this
      omega
    simp only [ByteReadable, ByteDevice, elementAddress_add]
    exact hr _ this

/-- The checks and reads of a form pass exactly when R82 lets it through, and give the base and the
elements. -/
theorem ld4Load_eq_ok_iff (n : XSp) (sz : ElemSize) (base : Word) (es : List (BitVec 64)) :
    ld4Load n sz s = .ok (base, es) ↔
      LoadReady s n sz ∧ base = baseValue s n ∧ es = elements s base sz := by
  unfold ld4Load LoadReady
  cases hc : checkSimdEnabled s with
  | error e =>
    have : ¬SimdEnabled s := fun h => by simp [(checkSimdEnabled_eq_ok_iff s).2 h] at hc
    simp [this]
  | ok u =>
    have hs : SimdEnabled s := (checkSimdEnabled_eq_ok_iff s).1 hc
    rw [readBase_eq]
    by_cases hb : n = .sp ∧ s.readSp.toNat % 16 ≠ 0
    · simp only [if_pos hb, reduceCtorEq, false_iff]
      exact fun h => hb.2 (h.1.2.1 hb.1)
    · have hsp : SpAligned s n := fun h => by
        by_contra hne
        exact hb ⟨h, hne⟩
      simp only [if_neg hb]
      cases hr : readStructure s (baseValue s n) sz with
      | error e =>
        simp only [reduceCtorEq, false_iff]
        rintro ⟨⟨-, -, ha, hrd⟩, rfl, rfl⟩
        simp [(readStructure_eq_ok s _ sz _).2 ⟨ha, hrd, rfl⟩] at hr
      | ok es' =>
        obtain ⟨ha, hrd, rfl⟩ := (readStructure_eq_ok s _ sz _).1 hr
        simp only [Except.ok.injEq, Prod.mk.injEq]
        constructor
        · rintro ⟨rfl, rfl⟩
          exact ⟨⟨hs, hsp, ha, hrd⟩, rfl, rfl⟩
        · rintro ⟨-, rfl, rfl⟩
          exact ⟨rfl, rfl⟩

/-- The exceptions a form can raise. -/
theorem ld4Load_error {n : XSp} {sz : ElemSize} {e : Stop} (h : ld4Load n sz s = .error e) :
    e = .refuse .hostExtensionsEnabled ∨ (∃ a, e = .refuse (.deviceMemory a)) ∨
    e = .raise .undefinedInstruction ∨ e = .raise .spAlignmentFault ∨
    (∃ a, e = .raise (.dataAbortAlignment a)) ∨ (∃ a, e = .raise (.dataAbortOther a)) ∨
    ∃ x, e = .raise (.simdAccessTrap x) ∧ elRank s.pstate.el ≤ elRank x.level ∧
      haveEl s.platform x.level = true ∧ (x = .el2 → s.secure = false) := by
  unfold ld4Load at h
  split at h
  · next e' hc =>
    cases h
    rcases checkSimdEnabled_error s hc with h | h | h
    · exact .inl h
    · exact .inr (.inr (.inl h))
    · exact .inr (.inr (.inr (.inr (.inr (.inr h)))))
  · split at h
    · next e' hb =>
      cases h
      rw [readBase_eq] at hb
      split at hb <;> cases hb
      exact .inr (.inr (.inr (.inl rfl)))
    · split at h
      · next e' hr =>
        cases h
        obtain ⟨k, -, hm, -⟩ := (readStructure_eq_error_iff _ _ _ _).1 hr
        rcases (memRead_eq_error_iff _ _ _ _).1 hm with ⟨-, rfl⟩ | ⟨-, j, -, -, -, rfl⟩ |
          ⟨-, -, j, -, -, -, rfl⟩
        · exact .inr (.inr (.inr (.inr (.inl ⟨_, rfl⟩))))
        · exact .inr (.inr (.inr (.inr (.inr (.inl ⟨_, rfl⟩)))))
        · exact .inr (.inl ⟨_, rfl⟩)
      · cases h

/-! ### The outcome of a form (`00_scope.md` R9) -/

/-- A form completes exactly when R82 lets it through, with the writes of R78. -/
theorem formOutcome_eq_next_iff (i : Instr) (s' : State) :
    formOutcome i s = .next s' ↔
      LoadReady s i.base i.elemSize ∧
        s' = ld4Commit i.first i.base i.lane i.elemSize i.post (baseValue s i.base)
          (elements s (baseValue s i.base) i.elemSize) s := by
  unfold formOutcome ld4Single
  split
  · next r h =>
    simp only [reduceCtorEq, false_iff]
    exact fun hr => by simp [(ld4Load_eq_ok_iff s _ _ _ _).2 ⟨hr.1, rfl, rfl⟩] at h
  · next e h =>
    simp only [reduceCtorEq, false_iff]
    exact fun hr => by simp [(ld4Load_eq_ok_iff s _ _ _ _).2 ⟨hr.1, rfl, rfl⟩] at h
  · next base es h =>
    obtain ⟨hr, rfl, rfl⟩ := (ld4Load_eq_ok_iff s _ _ _ _).1 h
    constructor
    · rintro ⟨⟩
      exact ⟨hr, rfl⟩
    · rintro ⟨-, rfl⟩
      rfl

/-- A form faults exactly when a check or a read of R78 raises, in the state of R103. -/
theorem formOutcome_eq_fault_iff (i : Instr) (e : SyncException) (s₁ : State) :
    formOutcome i s = .fault e s₁ ↔
      ld4Load i.base i.elemSize s = .error (.raise e) ∧
        s₁ = ld4AtFault e i.first i.lane i.elemSize s := by
  unfold formOutcome ld4Single
  split
  · next r h => simp [h]
  · next e' h =>
    rw [h]
    simp only [SpecOutcome.fault.injEq, Except.error.injEq, Stop.raise.injEq]
    constructor <;> · rintro ⟨rfl, rfl⟩; exact ⟨rfl, rfl⟩
  · next base es h => simp [h]

/-- A form is refused exactly when a check or a read of R78 refuses. -/
theorem formOutcome_eq_refused_iff (i : Instr) (r : Refusal) :
    formOutcome i s = .refused r ↔ ld4Load i.base i.elemSize s = .error (.refuse r) := by
  unfold formOutcome ld4Single
  split <;> next h => simp [h]

/-! ### A form that completes (R78) -/

/-- A form that R82 lets through completes. -/
theorem exec_ready (i : Instr) (h : LoadReady s i.base i.elemSize) :
    exec i s = .next (ld4Commit i.first i.base i.lane i.elemSize i.post (baseValue s i.base)
      (elements s (baseValue s i.base) i.elemSize) s) := by
  rw [exec_eq, (formOutcome_eq_next_iff s i _).2 ⟨h, rfl⟩, SpecOutcome.taken]

/-- A form that answers a next state has completed, or has raised an exception that is taken. -/
theorem exec_eq_next {i : Instr} {s' : State} (h : exec i s = .next s') :
    (LoadReady s i.base i.elemSize ∧
      s' = ld4Commit i.first i.base i.lane i.elemSize i.post (baseValue s i.base)
        (elements s (baseValue s i.base) i.elemSize) s) ∨
    ∃ e, ld4Load i.base i.elemSize s = .error (.raise e) ∧
      s' = takeSync e (ld4AtFault e i.first i.lane i.elemSize s) := by
  rw [exec_eq, SpecOutcome.taken_eq_next_iff] at h
  rcases h with h | ⟨e, s₁, h, rfl⟩
  · exact .inl ((formOutcome_eq_next_iff s i _).1 h)
  · obtain ⟨he, rfl⟩ := (formOutcome_eq_fault_iff s i _ _).1 h
    exact .inr ⟨e, he, rfl⟩

/-- A form whose checks raise takes that exception from the state of R103. -/
theorem exec_fault (i : Instr) {e : SyncException}
    (h : ld4Load i.base i.elemSize s = .error (.raise e)) :
    exec i s = .next (takeSync e (ld4AtFault e i.first i.lane i.elemSize s)) := by
  rw [exec_eq, (formOutcome_eq_fault_iff s i e _).2 ⟨h, rfl⟩, SpecOutcome.taken]

/-- A form whose checks refuse is refused. -/
theorem exec_refused (i : Instr) {r : Refusal}
    (h : ld4Load i.base i.elemSize s = .error (.refuse r)) : exec i s = .refused r := by
  rw [exec_eq, (formOutcome_eq_refused_iff s i r).2 h, SpecOutcome.taken]

section Commit

variable (t : Fin 32) (n : XSp) (index : Nat) (sz : ElemSize) (post : PostIndex) (base : Word)
  (es : List (BitVec 64))

@[simp] theorem ld4Commit_pc : (ld4Commit t n index sz post base es s).pc = s.pc + 4#64 := rfl

@[simp] theorem ld4Commit_v :
    (ld4Commit t n index sz post base es s).v = writeLanes s.v t index sz es := by
  cases post <;> cases n <;> simp [ld4Commit, offsetValue, writeBase, State.writeSp]

@[simp] theorem ld4Commit_pstate : (ld4Commit t n index sz post base es s).pstate = s.pstate := by
  cases post <;> cases n <;> simp [ld4Commit, offsetValue, writeBase, State.writeSp]

@[simp] theorem ld4Commit_fp : (ld4Commit t n index sz post base es s).fp = s.fp := by
  cases post <;> cases n <;> simp [ld4Commit, offsetValue, writeBase, State.writeSp]

@[simp] theorem ld4Commit_sys : (ld4Commit t n index sz post base es s).sys = s.sys := by
  cases post <;> cases n <;> simp [ld4Commit, offsetValue, writeBase, State.writeSp]

@[simp] theorem ld4Commit_dbg : (ld4Commit t n index sz post base es s).dbg = s.dbg := by
  cases post <;> cases n <;> simp [ld4Commit, offsetValue, writeBase, State.writeSp]

@[simp] theorem ld4Commit_hidden : (ld4Commit t n index sz post base es s).hidden = s.hidden := by
  cases post <;> cases n <;> simp [ld4Commit, offsetValue, writeBase, State.writeSp]

@[simp] theorem ld4Commit_mem : (ld4Commit t n index sz post base es s).mem = s.mem := by
  cases post <;> cases n <;> simp [ld4Commit, offsetValue, writeBase, State.writeSp]

@[simp] theorem ld4Commit_text : (ld4Commit t n index sz post base es s).text = s.text := by
  cases post <;> cases n <;> simp [ld4Commit, offsetValue, writeBase, State.writeSp]

@[simp] theorem ld4Commit_platform :
    (ld4Commit t n index sz post base es s).platform = s.platform := by
  cases post <;> cases n <;> simp [ld4Commit, offsetValue, writeBase, State.writeSp]

/-- A completed form keeps the exception registers, VBAR and SCTLR of every level. -/
theorem ld4Commit_bankKept (x : TargetEl) :
    BankKept s (ld4Commit t n index sz post base es s) x := by
  cases post <;> cases n <;> simp [BankKept, ld4Commit, offsetValue, writeBase, State.writeSp]

/-- Without an offset the base registers are as before. -/
theorem ld4Commit_baseKept (h : offsetValue s sz post = none) :
    BaseKept s (ld4Commit t n index sz post base es s) := by
  simp [BaseKept, ld4Commit, h]

/-- With an offset the base register holds the base plus the offset. -/
theorem ld4Commit_baseWritten {offs : Word} (h : offsetValue s sz post = some offs) :
    BaseWritten s (ld4Commit t n index sz post base es s) n (base + offs) := by
  cases n with
  | x i => simp [BaseWritten, ld4Commit, h, writeBase]
  | sp =>
    simp only [BaseWritten, ld4Commit, h, writeBase, State.writeSp, State.spLevel, selectedStack,
      State.readX_tick, State.readX_setPc, State.readX_setSpAt, State.readX_setVregs,
      State.spAt_tick, State.spAt_setPc, State.spAt_setSpAt, State.spAt_setVregs,
      State.setVregs_pstate, implies_true]
    exact ⟨trivial, fun l => rfl⟩

end Commit

/-- A completed form has loaded the structure (R78, R81). -/
theorem ld4Commit_loaded (t : Fin 32) (n : XSp) (index : Nat) (sz : ElemSize) (post : PostIndex)
    (base : Word) (h : index < sz.lanes) :
    StructureLoaded s (ld4Commit t n index sz post base (elements s base sz) s) t index sz base := by
  obtain ⟨written, -⟩ := writeLanes_four s.v t index sz
    (elementValue s (elementAddress base sz 0) sz) (elementValue s (elementAddress base sz 1) sz)
    (elementValue s (elementAddress base sz 2) sz) (elementValue s (elementAddress base sz 3) sz)
  refine ⟨fun k hk b hb => ?_, otherBitsKept_writeLanes _ _ _ _ _ _ _ _ _ (ld4Commit_v ..)⟩
  have hv : (ld4Commit t n index sz post base (elements s base sz) s).readV (listReg t k) =
      setElem s.v[listReg t k] index (elemBits sz) ((elements s base sz).getD k 0#64) := by
    rw [State.readV, ld4Commit_v]
    exact written k hk
  rw [hv, laneByte_setElem _ _ _ _ _ h hb, elements_getD _ _ _ _ hk, elementValue_byte _ _ _ _ hb,
    elementAddress_add]
  rfl

/-- Before the entry of an exception, only bits of the destination lanes may have changed (R103). -/
theorem ld4AtFault_lanes (e : SyncException) (t : Fin 32) (index : Nat) (sz : ElemSize) :
    OnlyLanesDiffer s (ld4AtFault e t index sz s) t index sz := by
  have same : OtherBitsKept s s t index sz := ⟨fun _ _ _ _ _ => rfl, fun _ _ => rfl⟩
  cases e <;> first
    | exact ⟨rfl, otherBitsKept_writeLanes _ _ _ _ _ _ _ _ _ rfl⟩
    | exact ⟨rfl, same⟩

/-- Only a Data Abort leaves lanes changed. -/
theorem ld4AtFault_eq (e : SyncException) (t : Fin 32) (index : Nat) (sz : ElemSize)
    (h : ∀ a, e ≠ .dataAbortAlignment a ∧ e ≠ .dataAbortOther a) : ld4AtFault e t index sz s = s := by
  cases e with
  | dataAbortAlignment a => exact absurd rfl (h a).1
  | dataAbortOther a => exact absurd rfl (h a).2
  | _ => rfl

end Sys2Proof.Machine
end

