-- ==== Sys2Proof/Laws/Memory.lean ====
section
/-!
SUPPORT. The laws of memory: a read after a write, and that every operation keeps the canonical form.
-/

namespace Sys2Proof.Machine

theorem cellsRise_cons (l : Option Nat) (c : Host.Cell) (m : List Host.Cell) :
    cellsRise l (c :: m) = true ↔ (∀ k, l = some k → k < c.1) ∧ cellsRise (some c.1) m = true := by
  cases l <;> simp [cellsRise]

/-- A list whose addresses rise from above a bound rises from above any lower bound. -/
theorem cellsRise_weaken {k l : Nat} {m : List Host.Cell} (h : cellsRise (some l) m = true)
    (hk : k ≤ l) : cellsRise (some k) m = true := by
  cases m with
  | nil => rfl
  | cons c m =>
    rw [cellsRise_cons] at h ⊢
    refine ⟨fun j hj => ?_, h.2⟩
    have := h.1 l rfl
    cases hj
    omega

theorem cellsRise_none {l : Option Nat} {m : List Host.Cell} (h : cellsRise l m = true) :
    cellsRise none m = true := by
  cases m with
  | nil => rfl
  | cons c m =>
    rw [cellsRise_cons] at h ⊢
    exact ⟨nofun, h.2⟩

/-- Below the addresses of a rising list every byte is unlisted. -/
theorem cellAt_below {d : Byte} {a l : Nat} {m : List Host.Cell} (h : cellsRise (some l) m = true)
    (ha : a ≤ l) : cellAt d a m = d := by
  induction m generalizing l with
  | nil => rfl
  | cons c m ih =>
    rw [cellsRise_cons] at h
    have := h.1 l rfl
    have hne : c.1 ≠ a := by omega
    simp [cellAt, hne, ih h.2 (by omega)]

theorem putCell_rise {l : Option Nat} {a : Nat} {u : Byte} {m : List Host.Cell}
    (h : cellsRise l m = true) (ha : ∀ k, l = some k → k < a) : cellsRise l (putCell a u m) = true := by
  induction m generalizing l with
  | nil =>
    by_cases hu : u = unlistedByte
    · simp [putCell, hu, cellsRise]
    · rw [putCell, if_neg hu, cellsRise_cons]
      exact ⟨ha, rfl⟩
  | cons c m ih =>
    obtain ⟨b, w⟩ := c
    have hc := h
    rw [cellsRise_cons] at hc
    unfold putCell
    split
    · split
      · exact h
      · next hlt _ =>
        rw [cellsRise_cons, cellsRise_cons]
        exact ⟨ha, fun k hk => by cases hk; exact hlt, hc.2⟩
    · split
      · next heq =>
        subst heq
        split
        · cases l with
          | none => exact cellsRise_none hc.2
          | some k => exact cellsRise_weaken hc.2 (Nat.le_of_lt (ha k rfl))
        · rw [cellsRise_cons]; exact ⟨ha, hc.2⟩
      · next h1 h2 =>
        rw [cellsRise_cons]
        refine ⟨hc.1, ih hc.2 fun k hk => ?_⟩
        cases hk
        show b < a
        omega

/-- Reading a cell after putting one. -/
theorem cellAt_putCell {l : Option Nat} {a b : Nat} {u : Byte} {m : List Host.Cell}
    (h : cellsRise l m = true) :
    cellAt unlistedByte b (putCell a u m) = if b = a then u else cellAt unlistedByte b m := by
  induction m generalizing l with
  | nil =>
    by_cases hu : u = unlistedByte
    · by_cases hb : b = a <;> simp [putCell, hu, cellAt, hb]
    · by_cases hb : b = a
      · simp [putCell, hu, cellAt, hb]
      · simp [putCell, hu, cellAt, hb, Ne.symm hb]
  | cons c m ih =>
    obtain ⟨e, w⟩ := c
    rw [cellsRise_cons] at h
    unfold putCell
    split
    · next hlt =>
      have hlist : cellsRise (some a) ((e, w) :: m) = true := by
        rw [cellsRise_cons]; exact ⟨fun k hk => by cases hk; exact hlt, h.2⟩
      split
      · next hu =>
        by_cases hb : b = a
        · rw [hb, cellAt_below hlist (Nat.le_refl a), if_pos rfl, hu]
        · rw [if_neg hb]
      · by_cases hb : b = a
        · simp [cellAt, hb]
        · simp [cellAt, hb, Ne.symm hb]
    · split
      · next heq =>
        subst heq
        split
        · next hu =>
          by_cases hb : b = a
          · rw [hb, cellAt_below h.2 (Nat.le_refl a), if_pos rfl, hu]
          · simp [cellAt, hb, Ne.symm hb]
        · by_cases hb : b = a
          · simp [cellAt, hb]
          · simp [cellAt, hb, Ne.symm hb]
      · next hne =>
        by_cases he : e = b
        · subst he
          simp [cellAt, Ne.symm hne]
        · simp [cellAt, he, ih h.2]

theorem all_putCell {p : Host.Cell → Bool} {a : Nat} {u : Byte} {m : List Host.Cell}
    (h : m.all p = true) (hp : u ≠ unlistedByte → p (a, u) = true) :
    (putCell a u m).all p = true := by
  induction m with
  | nil =>
    by_cases hu : u = unlistedByte
    · simp [putCell, hu]
    · simp [putCell, hu, hp hu]
  | cons c m ih =>
    obtain ⟨b, w⟩ := c
    rw [List.all_cons, Bool.and_eq_true] at h
    unfold putCell
    split
    · split
      · rw [List.all_cons, Bool.and_eq_true]; exact h
      · next hu => simp only [List.all_cons, Bool.and_eq_true]; exact ⟨hp hu, h⟩
    · split
      · split
        · exact h.2
        · next hu => rw [List.all_cons, Bool.and_eq_true]; exact ⟨hp hu, h.2⟩
      · rw [List.all_cons, Bool.and_eq_true]; exact ⟨h.1, ih h.2⟩

/-- A write keeps the canonical form. -/
theorem Memory.write_wf {m : Memory} (a : Word) (u : Byte) (h : Memory.wf m = true) :
    Memory.wf (Memory.write m a u) = true := by
  unfold Memory.wf at h ⊢
  rw [Bool.and_eq_true] at h ⊢
  refine ⟨putCell_rise h.1 (fun k hk => by cases hk), all_putCell h.2 fun hu => ?_⟩
  simp [hu, a.isLt]

/-- Writing consecutive bytes keeps the canonical form. -/
theorem Memory.writeBytes_wf {m : Memory} (a : Word) (us : List Byte) (h : Memory.wf m = true) :
    Memory.wf (Memory.writeBytes m a us) = true := by
  induction us generalizing m a with
  | nil => exact h
  | cons u us ih => exact ih (a + 1#64) (Memory.write_wf a u h)

/-- The empty memory has the canonical form. -/
@[simp] theorem Memory.nil_wf : Memory.wf [] = true := rfl

/-- Reading after a write: the byte written at its address, every other byte as before. -/
theorem Memory.read_write {m : Memory} (a b : Word) (u : Byte) (h : Memory.wf m = true) :
    Memory.read (Memory.write m a u) b = if b = a then u else Memory.read m b := by
  unfold Memory.wf at h
  rw [Bool.and_eq_true] at h
  unfold Memory.read Memory.write
  rw [cellAt_putCell h.1]
  simp [BitVec.toNat_inj]

theorem cellsRise_filter {l : Option Nat} {m : List Host.Cell} (p : Host.Cell → Bool)
    (h : cellsRise l m = true) : cellsRise l (m.filter p) = true := by
  induction m generalizing l with
  | nil => exact h
  | cons c m ih =>
    rw [cellsRise_cons] at h
    by_cases hp : p c = true
    · rw [List.filter_cons_of_pos hp, cellsRise_cons]
      exact ⟨h.1, ih h.2⟩
    · rw [List.filter_cons_of_neg hp]
      cases l with
      | none => exact cellsRise_none (ih h.2)
      | some k => exact ih (cellsRise_weaken h.2 (Nat.le_of_lt (h.1 k rfl)))

/-- Taking cells away keeps the canonical form of a program text. -/
theorem ProgramText.erase_wf {t : ProgramText} (a : Word) (n : Nat) (h : ProgramText.wf t = true) :
    ProgramText.wf (ProgramText.erase t a n) = true := by
  induction n generalizing t a with
  | zero => exact h
  | succ n ih =>
    refine ih (a + 1#64) ?_
    unfold ProgramText.wf at h ⊢
    rw [Bool.and_eq_true, List.all_eq_true] at h ⊢
    exact ⟨cellsRise_filter _ h.1, fun c hc => h.2 c (List.mem_of_mem_filter hc)⟩

/-- Looking a filtered text up at an address that the filter keeps. -/
theorem ProgramText.lookup_filter (t : ProgramText) (a b : Word) :
    ProgramText.lookup (t.filter (fun c => c.1 != a.toNat)) b =
      if b = a then none else ProgramText.lookup t b := by
  induction t with
  | nil => simp [ProgramText.lookup]
  | cons c t ih =>
    obtain ⟨k, u⟩ := c
    rw [List.filter_cons]
    by_cases hk : k = a.toNat
    · rw [if_neg (by simp [hk]), ih]
      by_cases hb : b = a
      · simp [hb]
      · have : a.toNat ≠ b.toNat := fun h => hb (BitVec.eq_of_toNat_eq h.symm)
        simp [hb, ProgramText.lookup, hk, this]
    · rw [if_pos (by simpa using hk)]
      simp only [ProgramText.lookup, ih]
      by_cases hb : b = a
      · simp [hb, hk]
      · simp [hb]

/-- No erased address is listed any longer; every other one is looked up as before. -/
theorem ProgramText.lookup_erase (t : ProgramText) (a b : Word) (n : Nat) (hn : n < 2 ^ 64) :
    ProgramText.lookup (ProgramText.erase t a n) b =
      if (b - a).toNat < n then none else ProgramText.lookup t b := by
  induction n generalizing t a with
  | zero => simp [ProgramText.erase]
  | succ n ih =>
    rw [ProgramText.erase, ih _ _ (by omega), ProgramText.lookup_filter]
    by_cases hb : b = a
    · simp [hb]
    · have hpos : b.toNat ≠ a.toNat := fun h => hb (BitVec.eq_of_toNat_eq h)
      have step : (b - (a + 1#64)).toNat + 1 = (b - a).toNat := by
        simp only [BitVec.toNat_sub, BitVec.toNat_add, BitVec.toNat_ofNat]
        omega
      rw [if_neg hb]
      split <;> split <;> first | rfl | omega

end Sys2Proof.Machine
end

