-- ==== Sys2Proof/Laws/PerInstr.lean ====
section
/-!
SUPPORT. A statement about every instruction as syntax, one lemma for each constructor: it is the form of
its operands, it is well formed exactly when its lane is one its element size has, and its word has the
fixed bits of the class of loads of four (`30_encoding.md` R65, R66, R69).
-/

namespace Sys2Proof

/-- An instruction is the form its operands give, well formed in the lane range of its size, and encoded
in the class. -/
def Laws.FormOperands.Statement (i : Instr) : Prop :=
  Instr.ofOperands i.elemSize i.post i.first i.base i.lane = i ∧
    (i.wellFormed = true ↔ i.lane < i.elemSize.lanes) ∧
    fieldClass (encode i) = 0b001101#6 ∧ fieldL (encode i) = 1#1 ∧ fieldR (encode i) = 1#1 ∧
    fieldOpcode (encode i) = opcodeOfSize i.elemSize

/-- The statement for any instruction, which the lemmas of the constructors cite. -/
theorem formOperands_all (i : Instr) : Laws.FormOperands.Statement i :=
  ⟨i.ofOperands_operands, i.wellFormed_iff, by simp [encode], by simp [encode], by simp [encode],
    by simp [encode]⟩

theorem Laws.FormOperands.ld4B (t : Fin 32) (n : XSp) (index : Nat) :
    Laws.FormOperands.Statement (.ld4B t n index) := formOperands_all _

theorem Laws.FormOperands.ld4H (t : Fin 32) (n : XSp) (index : Nat) :
    Laws.FormOperands.Statement (.ld4H t n index) := formOperands_all _

theorem Laws.FormOperands.ld4S (t : Fin 32) (n : XSp) (index : Nat) :
    Laws.FormOperands.Statement (.ld4S t n index) := formOperands_all _

theorem Laws.FormOperands.ld4D (t : Fin 32) (n : XSp) (index : Nat) :
    Laws.FormOperands.Statement (.ld4D t n index) := formOperands_all _

theorem Laws.FormOperands.ld4BImm (t : Fin 32) (n : XSp) (index : Nat) :
    Laws.FormOperands.Statement (.ld4BImm t n index) := formOperands_all _

theorem Laws.FormOperands.ld4BReg (t : Fin 32) (n : XSp) (index : Nat) (m : Fin 31) :
    Laws.FormOperands.Statement (.ld4BReg t n index m) := formOperands_all _

theorem Laws.FormOperands.ld4HImm (t : Fin 32) (n : XSp) (index : Nat) :
    Laws.FormOperands.Statement (.ld4HImm t n index) := formOperands_all _

theorem Laws.FormOperands.ld4HReg (t : Fin 32) (n : XSp) (index : Nat) (m : Fin 31) :
    Laws.FormOperands.Statement (.ld4HReg t n index m) := formOperands_all _

theorem Laws.FormOperands.ld4SImm (t : Fin 32) (n : XSp) (index : Nat) :
    Laws.FormOperands.Statement (.ld4SImm t n index) := formOperands_all _

theorem Laws.FormOperands.ld4SReg (t : Fin 32) (n : XSp) (index : Nat) (m : Fin 31) :
    Laws.FormOperands.Statement (.ld4SReg t n index m) := formOperands_all _

theorem Laws.FormOperands.ld4DImm (t : Fin 32) (n : XSp) (index : Nat) :
    Laws.FormOperands.Statement (.ld4DImm t n index) := formOperands_all _

theorem Laws.FormOperands.ld4DReg (t : Fin 32) (n : XSp) (index : Nat) (m : Fin 31) :
    Laws.FormOperands.Statement (.ld4DReg t n index m) := formOperands_all _

end Sys2Proof
end

