-- ==== Sys2Proof/Laws/Step.lean ====
section
/-!
SUPPORT. What a step can do: when its fetch lets it reach an instruction, and how a step that answers a
next state has ended.
-/

namespace Sys2Proof.Machine

open Sys2Proof.Safety

variable (s : State)

/-- The step is admitted exactly when no configuration is refused. -/
theorem notAdmitted_eq_none_iff : notAdmitted s = none ↔ Admitted s := by
  unfold notAdmitted Admitted
  cases s.pstate.nRW <;> cases s.dbg.halted <;> cases s.pstate.ss <;> cases s.dbg.events <;>
    cases s.hidden.irq <;> cases s.hidden.fiq <;> cases s.hidden.serror <;> simp

/-- A property of the four byte addresses of the word at a pc. -/
theorem all_wordAddresses (pc : Word) (p : Word → Bool) :
    (wordAddresses pc).all p = true ↔ ∀ k, k < 4 → p (pc + BitVec.ofNat 64 k) = true := by
  have h0 : pc + BitVec.ofNat 64 0 = pc := by simp
  simp only [wordAddresses, List.all_cons, List.all_nil, Bool.and_true, Bool.and_eq_true]
  constructor
  · rintro ⟨a, b, c, d⟩ k hk
    interval_cases k
    · rwa [h0]
    · exact b
    · exact c
    · exact d
  · intro h
    refine ⟨?_, h 1 (by omega), h 2 (by omega), h 3 (by omega)⟩
    have := h 0 (by omega)
    rwa [h0] at this

/-- What the fetch finds at an admitted pc, in the order of `60_exceptions.md` R100. -/
theorem fetchDecode_admitted (h : Admitted s) :
    fetchDecode s =
      if s.pc.toNat % 4 ≠ 0 then .raise (.pcAlignmentFault s.pc)
      else if !(wordAddresses s.pc).all (fun a => mayExecute s.platform s.pstate.el a) then
        .raise (.instructionAbort s.pc)
      else if (wordAddresses s.pc).any (fun a => isShared s.platform a) then
        .refuse (.codeWrittenByOthers s.pc)
      else if s.pstate.il then .raise .illegalState
      else decodedStep (fetchedWord s) := by
  rw [fetchDecode, (notAdmitted_eq_none_iff s).2 h]

theorem codeExecutable_iff :
    CodeExecutable s ↔
      (wordAddresses s.pc).all (fun a => mayExecute s.platform s.pstate.el a) = true :=
  (all_wordAddresses _ _).symm

theorem codeUnshared_iff :
    CodeUnshared s ↔ (wordAddresses s.pc).any (fun a => isShared s.platform a) = false := by
  rw [List.any_eq_not_all_not, Bool.not_eq_false', all_wordAddresses]
  simp [CodeUnshared]

/-- When the checks pass, the fetch finds what the word at the pc is. -/
theorem fetchDecode_ready (h : FetchReady s) : fetchDecode s = decodedStep (fetchedWord s) := by
  obtain ⟨ha, hp, he, hs, hi⟩ := h
  rw [fetchDecode_admitted s ha, if_neg (by omega), if_neg (by simp [(codeExecutable_iff s).1 he]),
    if_neg (by simp [(codeUnshared_iff s).1 hs]), if_neg (by simp [hi])]

/-- Byte `k` of the fetched word. -/
theorem fetchedWord_byte (k : Nat) (hk : k < 4) :
    (fetchedWord s).extractLsb' (8 * k) 8 = fetchByte s (s.pc + BitVec.ofNat 64 k) := by
  have h0 : s.pc + BitVec.ofNat 64 0 = s.pc := by simp
  refine BitVec.eq_of_getLsbD_eq fun j hj => ?_
  simp only [fetchedWord, wordOfBytes, BitVec.getLsbD_extractLsb', BitVec.getLsbD_append]
  interval_cases k <;> interval_cases j <;> simp [-BitVec.getLsbD_eq_getElem]

/-- The word at the pc is the one its four bytes are the bytes of. -/
theorem fetchedWord_eq {w : InstrWord} (h : WordAt s w) : fetchedWord s = w := by
  refine BitVec.eq_of_getLsbD_eq fun j hj => ?_
  have := (fetchedWord_byte s (j / 8) (by omega)).trans (h (j / 8) (by omega))
  have := congrArg (fun b => b.getLsbD (j % 8)) this
  simp only [BitVec.getLsbD_extractLsb', Nat.mod_lt _ (show 8 > 0 by decide), decide_true,
    Bool.true_and, Nat.div_add_mod] at this
  exact this

/-- The exceptions the fetch and the decode can raise. -/
theorem fetchDecode_raise {e : SyncException} (h : fetchDecode s = .raise e) :
    Admitted s ∧ (e = .pcAlignmentFault s.pc ∨ e = .instructionAbort s.pc ∨ e = .illegalState ∨
      e = .undefinedInstruction) := by
  cases hn : notAdmitted s with
  | some r => rw [fetchDecode, hn] at h; cases h
  | none =>
    have ha := (notAdmitted_eq_none_iff s).1 hn
    refine ⟨ha, ?_⟩
    rw [fetchDecode_admitted s ha] at h
    split at h
    · cases h; exact .inl rfl
    · split at h
      · cases h; exact .inr (.inl rfl)
      · split at h
        · cases h
        · split at h
          · cases h; exact .inr (.inr (.inl rfl))
          · unfold decodedStep at h
            split at h <;> cases h
            exact .inr (.inr (.inr rfl))

/-! ### The outcome of a step (`00_scope.md` R9) -/

/-- The machine's step takes the exception of the spec's outcome. -/
theorem step_eq_taken : step s = (stepOutcome s).taken := by
  unfold step stepOutcome
  cases fetchDecode s with
  | execute i => exact exec_eq s i
  | raise e => rfl
  | refuse r => rfl

/-- The outcome of a step is `Next` exactly when it completes an instruction. -/
theorem stepOutcome_eq_next_iff (s' : State) : stepOutcome s = .next s' ↔ Completes s s' := by
  unfold Completes step stepOutcome
  cases fetchDecode s with
  | execute i =>
    simp only [Fetched.execute.injEq, formOutcome_eq_next_iff]
    constructor
    · rintro ⟨hr, rfl⟩
      exact ⟨i, rfl, hr, exec_ready s i hr⟩
    · rintro ⟨_, rfl, hr, he⟩
      rw [exec_ready s i hr] at he
      cases he
      exact ⟨hr, rfl⟩
  | raise e => simp
  | refuse r => simp

/-- Where the outcome of a step is a fault, no instruction completes. -/
theorem not_completes_of_fault {e : SyncException} {s₁ : State} (h : stepOutcome s = .fault e s₁)
    (t : State) : ¬Completes s t := by
  rw [← stepOutcome_eq_next_iff, h]
  exact nofun

/-- How a step faults: its fetch or decode raises with nothing changed, or its form faults. -/
theorem stepOutcome_eq_fault {e : SyncException} {s₁ : State} (h : stepOutcome s = .fault e s₁) :
    (fetchDecode s = .raise e ∧ s₁ = s) ∨
    ∃ i, fetchDecode s = .execute i ∧ ld4Load i.base i.elemSize s = .error (.raise e) ∧
      s₁ = ld4AtFault e i.first i.lane i.elemSize s := by
  unfold stepOutcome at h
  split at h
  · next i hi => exact .inr ⟨i, hi, (formOutcome_eq_fault_iff s i _ _).1 h⟩
  · next e' he => cases h; exact .inl ⟨he, rfl⟩
  · cases h

/-- A word that a step executes is the word at the pc. -/
theorem decode_of_fetchDecode {i : Instr} (h : fetchDecode s = .execute i) :
    decode (fetchedWord s) = .instr i := by
  unfold fetchDecode at h
  split at h
  · cases h
  · split at h
    · cases h
    · split at h
      · cases h
      · split at h
        · cases h
        · split at h
          · cases h
          · unfold decodedStep at h
            split at h <;> cases h
            assumption

/-- A step that answers a next state has executed an instruction or has taken an exception of the fetch or
the decode. -/
theorem step_eq_next {s' : State} (h : step s = .next s') :
    (∃ i, fetchDecode s = .execute i ∧ exec i s = .next s') ∨
    ∃ e, fetchDecode s = .raise e ∧ s' = takeSync e s := by
  unfold step at h
  split at h
  · next i hi => exact .inl ⟨i, hi, h⟩
  · next e he => cases h; exact .inr ⟨e, he, rfl⟩
  · cases h

/-- How a step ends: it completes a form, or it takes an exception after no more than the destination
lanes have changed. -/
theorem step_cases {s' : State} (h : step s = .next s') :
    (∃ i : Instr, LoadReady s i.base i.elemSize ∧
      s' = ld4Commit i.first i.base i.lane i.elemSize i.post (baseValue s i.base)
        (elements s (baseValue s i.base) i.elemSize) s) ∨
    ∃ e v, s' = takeSync e (s.setVregs v) ∧
      ∀ x, e = .simdAccessTrap x → elRank s.pstate.el ≤ elRank x.level ∧
        haveEl s.platform x.level = true ∧ (x = .el2 → s.secure = false) := by
  rcases step_eq_next s h with ⟨i, -, hi⟩ | ⟨e, he, rfl⟩
  · rcases exec_eq_next s hi with ⟨hr, rfl⟩ | ⟨e, he, rfl⟩
    · exact .inl ⟨i, hr, rfl⟩
    · refine .inr ⟨e, (ld4AtFault e i.first i.lane i.elemSize s).v, ?_, ?_⟩
      · rw [show ld4AtFault e i.first i.lane i.elemSize s =
            s.setVregs (ld4AtFault e i.first i.lane i.elemSize s).v from
            (ld4AtFault_lanes s e i.first i.lane i.elemSize).1]
        rfl
      · rintro x rfl
        rcases ld4Load_error s he with h | ⟨_, h⟩ | h | h | ⟨_, h⟩ | ⟨_, h⟩ | ⟨y, h, hy⟩ <;> cases h
        exact hy
  · refine .inr ⟨e, s.v, rfl, ?_⟩
    rintro x rfl
    rcases (fetchDecode_raise s he).2 with h | h | h | h <;> cases h

/-- The state with a word placed keeps the canonical forms. -/
theorem placeWord_wf (w : InstrWord) (hm : Memory.wf s.mem = true)
    (ht : ProgramText.wf s.text = true) :
    Memory.wf (placeWord s w).mem = true ∧ ProgramText.wf (placeWord s w).text = true :=
  ⟨Memory.writeBytes_wf _ _ hm, ProgramText.erase_wf _ _ ht⟩

end Sys2Proof.Machine
end

