-- ==== Sys2Proof/Tests/Slice0.lean ====
section
/-!
SUPPORT. Tests on fixed values: ill-formed terms refused, words of the spec's encodings decoded, the spec's
vectors (`95_test_vectors.md`), and for each statement with hypotheses a state and operands that meet them.
Expected results are copied from the spec's vectors and tables, not from the model.
-/

namespace Sys2Proof.Tests

open Sys2Proof Sys2Proof.Machine Sys2Proof.Safety

/-! ### Helpers -/

/-- The memory of the spec's vectors: the byte at address `a` is `a mod 256`, listed for 32 bytes. -/
def pattern (a : Nat) : Memory :=
  ((List.range 32).map fun k => (a + k, BitVec.ofNat 8 (a + k))).filter fun c => c.2 != 0#8

/-- The vector registers of the spec's vectors: `Vi` holds the byte `0xC0 + i` sixteen times. -/
def vectors : Vector VWord 32 :=
  Vector.ofFn fun i => BitVec.ofNat 128 ((0xC0 + i.val) * 0x01010101010101010101010101010101)

/-- The state of the spec's vectors on a memory: a configured state at EL3. -/
def start (mem : Memory) : State :=
  { State.reset with v := vectors, pc := 0x8000#64, mem := mem }

/-- The state with another level and stack pointer selection. -/
def atLevel (s : State) (el : EL) (sel : Bool) : State :=
  s.setPstate { s.pstate with el := el, spSel := sel }

/-- The state with other trap and configuration registers. -/
def withSys (s : State) (cpacr cptr2 cptr3 : BitVec 32) (hcr : BitVec 64) (scr : BitVec 32) : State :=
  { s with
    sys :=
      { s.sys with cpacrEl1 := cpacr, cptrEl2 := cptr2, cptrEl3 := cptr3, hcrEl2 := hcr,
                   scrEl3 := scr } }

/-- The state with other implemented levels. -/
def withEls (s : State) (el2 el3 : Bool) : State :=
  { s with platform := { s.platform with hasEl2 := el2, hasEl3 := el3 } }

/-- The state with other regions. -/
def withRegions (s : State) (rs : List Region) : State :=
  { s with platform := { s.platform with regions := rs } }

/-- The state with another SCTLR_EL3. -/
def withSctlr3 (s : State) (r : BitVec 32) : State := s.setBank .el3 { s.bank3 with sctlr := r }

/-- A region every level may read and execute. -/
def openRegion (base size : Nat) (kind : RegionKind) : Region :=
  { base := base, size := size, kind := kind, read := everyLevel, exec := everyLevel }

/-- The regions of F4: readable exactly from 0x1000 to 0x10FF, code at 0x8000. -/
def islands : List Region := [openRegion 0x1000 0x100 .normal, openRegion 0x8000 0x100 .normal]

/-- What a next state shows, or nothing. -/
def shown {α : Type} (f : State → α) : Host.Outcome State Fault Refusal → Option α
  | .next s => some (f s)
  | .fault _ => none
  | .refused _ => none

/-- Why an outcome is refused. -/
def refusal : Host.Outcome State Fault Refusal → Option Refusal
  | .next _ => none
  | .fault _ => none
  | .refused r => some r

/-! ### Ill-formed terms: an index outside the lanes of the size (`30_encoding.md` R66) -/

theorem test_ill_formed_b : (Instr.ld4B 0 .sp 16).wellFormed = false ∧
    (Instr.ld4BImm 0 .sp 16).wellFormed = false ∧ (Instr.ld4BReg 0 .sp 16 0).wellFormed = false := by
  decide

theorem test_ill_formed_h : (Instr.ld4H 0 .sp 8).wellFormed = false ∧
    (Instr.ld4HImm 0 .sp 8).wellFormed = false ∧ (Instr.ld4HReg 0 .sp 8 0).wellFormed = false := by
  decide

theorem test_ill_formed_s : (Instr.ld4S 0 .sp 4).wellFormed = false ∧
    (Instr.ld4SImm 0 .sp 4).wellFormed = false ∧ (Instr.ld4SReg 0 .sp 4 0).wellFormed = false := by
  decide

theorem test_ill_formed_d : (Instr.ld4D 0 .sp 2).wellFormed = false ∧
    (Instr.ld4DImm 0 .sp 2).wellFormed = false ∧ (Instr.ld4DReg 0 .sp 2 0).wellFormed = false := by
  decide

/-! ### Words written out: the examples of `40_ld4_single_structure.md` R84 to R95, bit 31 first as in
`spec/opcode_table.json`, and Parts 2 and 6 -/

theorem test_decode_ld4B :
    decode 0b0_0_001101_0_1_1_00000_001_0_11_00000_00000#32 = .instr (.ld4B 0 (.x 0) 3) := by decide

theorem test_decode_ld4H :
    decode 0b0_1_001101_0_1_1_00000_011_1_10_01111_00100#32 = .instr (.ld4H 4 (.x 15) 7) := by decide

theorem test_decode_ld4S :
    decode 0b0_1_001101_0_1_1_00000_101_1_00_11111_00000#32 = .instr (.ld4S 0 .sp 3) := by decide

theorem test_decode_ld4D :
    decode 0b0_1_001101_0_1_1_00000_101_0_01_00010_11101#32 = .instr (.ld4D 29 (.x 2) 1) := by decide

theorem test_decode_ld4BImm : decode 0x4DFF3C28#32 = .instr (.ld4BImm 8 (.x 1) 15) := by decide

theorem test_decode_ld4BReg : decode 0x0DE42070#32 = .instr (.ld4BReg 16 (.x 3) 0 4) := by decide

theorem test_decode_ld4HImm : decode 0x0DFF73FE#32 = .instr (.ld4HImm 30 .sp 2) := by decide

theorem test_decode_ld4HReg : decode 0x4DE668C0#32 = .instr (.ld4HReg 0 (.x 6) 5 6) := by decide

theorem test_decode_ld4SImm : decode 0x0DFFB154#32 = .instr (.ld4SImm 20 (.x 10) 1) := by decide

theorem test_decode_ld4SReg : decode 0x4DFEA01F#32 = .instr (.ld4SReg 31 (.x 0) 2 30) := by decide

theorem test_decode_ld4DImm : decode 0x0DFFA400#32 = .instr (.ld4DImm 0 (.x 0) 0) := by decide

theorem test_decode_ld4DReg : decode 0x4DE9A7EC#32 = .instr (.ld4DReg 12 .sp 1 9) := by decide

/-- The rows of Part 6 that are forms. -/
theorem test_decode_part6_forms :
    decode 0x0DFF2C00#32 = .instr (.ld4BImm 0 (.x 0) 3) ∧
    decode 0x0DFE2C00#32 = .instr (.ld4BReg 0 (.x 0) 3 30) ∧
    decode 0x0DE0A400#32 = .instr (.ld4DReg 0 (.x 0) 0 0) ∧
    decode 0x4DFFA400#32 = .instr (.ld4DImm 0 (.x 0) 1) := by decide

/-- The reserved rows of Part 6. -/
theorem test_decode_part6_reserved :
    decode 0x0D612C00#32 = .reserved .offsetWithoutPostIndex ∧
    decode 0x0D606400#32 = .reserved .halfwordOddSize ∧
    decode 0x0D60A800#32 = .reserved .wordHighSize ∧
    decode 0x0D60B400#32 = .reserved .doublewordWithS ∧
    decode 0x4DFFB400#32 = .reserved .doublewordWithS ∧
    decode 0x0D60F000#32 = .reserved .replicateWithS := by decide

/-- The rows of Part 6 that are not in scope. -/
theorem test_decode_part6_not_in_scope :
    decode 0x0D60E000#32 = .notInScope .ld4r ∧ decode 0x0D202C00#32 = .notInScope .storeForm ∧
    decode 0x0D402C00#32 = .notInScope .ld3Form ∧ decode 0x0D600C00#32 = .notInScope .ld2Form ∧
    decode 0x4C400000#32 = .notInScope .outsideClass ∧
    decode 0x8D602C00#32 = .notInScope .outsideClass ∧
    decode 0xD503201F#32 = .notInScope .outsideClass := by decide

/-- Lane index to word, Part 3: the lanes of the 16-bit form. -/
theorem test_encode_part3_halfword :
    (List.range 8).map (fun k => encode (.ld4H 0 (.x 0) k)) =
      [0x0D606000#32, 0x0D606800#32, 0x0D607000#32, 0x0D607800#32, 0x4D606000#32, 0x4D606800#32,
       0x4D607000#32, 0x4D607800#32] := by decide

/-- The bytes of a word of the table, `E4 79 60 4D` (Part 6, B1). -/
theorem test_decode_bytes :
    decodeBytes [0xE4#8, 0x79#8, 0x60#8, 0x4D#8, 0x00#8] = (.instr (.ld4H 4 (.x 15) 7), [0x00#8]) ∧
    decodeTableWord 32 0x4D6079E4 = some (.ld4H 4 (.x 15) 7) ∧
    decodeBytes [0xE4#8, 0x79#8] = (.notInScope .truncated, [0xE4#8, 0x79#8]) := by decide

/-! ### Part 2: one step of each form -/

theorem test_V1_ld4B :
    shown (fun s => (s.readV 0, s.readV 3, s.readX 0, s.pc))
      (exec (.ld4B 0 (.x 0) 3) ((start (pattern 0x1000)).writeX 0 0x1000#64)) =
    some (0xC0C0C0C0C0C0C0C0C0C0C0C000C0C0C0#128, 0xC3C3C3C3C3C3C3C3C3C3C3C303C3C3C3#128,
      0x1000#64, 0x8004#64) := by decide

theorem test_V3_ld4H :
    shown (fun s => (s.readV 4, s.readV 7, s.pc))
      (exec (.ld4H 4 (.x 15) 7) ((start (pattern 0x1010)).writeX 15 0x1010#64)) =
    some (0x1110C4C4C4C4C4C4C4C4C4C4C4C4C4C4#128, 0x1716C7C7C7C7C7C7C7C7C7C7C7C7C7C7#128,
      0x8004#64) := by decide

theorem test_V6_ld4S :
    shown (fun s => (s.readV 31, s.readV 0, s.readV 2))
      (exec (.ld4S 31 (.x 7) 1) ((start (pattern 0x10F0)).writeX 7 0x10F0#64)) =
    some (0xDFDFDFDFDFDFDFDFF3F2F1F0DFDFDFDF#128, 0xC0C0C0C0C0C0C0C0F7F6F5F4C0C0C0C0#128,
      0xC2C2C2C2C2C2C2C2FFFEFDFCC2C2C2C2#128) := by decide

theorem test_V8_ld4D_unaligned :
    shown (fun s => (s.readV 0, s.readV 3))
      (exec (.ld4D 0 (.x 0) 0) ((start (pattern 0x1003)).writeX 0 0x1003#64)) =
    some (0xC0C0C0C0C0C0C0C00A09080706050403#128, 0xC3C3C3C3C3C3C3C32221201F1E1D1C1B#128) := by decide

theorem test_V9_ld4BImm :
    shown (fun s => (s.readV 8, s.readV 11, s.readX 1))
      (exec (.ld4BImm 8 (.x 1) 15) ((start (pattern 0x1030)).writeX 1 0x1030#64)) =
    some (0x30C8C8C8C8C8C8C8C8C8C8C8C8C8C8C8#128, 0x33CBCBCBCBCBCBCBCBCBCBCBCBCBCBCB#128,
      0x1034#64) := by decide

theorem test_V10_ld4BReg :
    shown (fun s => (s.readV 19, s.readX 3, s.readX 4))
      (exec (.ld4BReg 16 (.x 3) 0 4)
        (((start (pattern 0x1000)).writeX 3 0x1000#64).writeX 4 0x100#64)) =
    some (0xD3D3D3D3D3D3D3D3D3D3D3D3D3D3D303#128, 0x1100#64, 0x100#64) := by decide

theorem test_V11_ld4HImm_sp :
    shown (fun s => (s.readV 30, s.readV 1, s.readSp, s.spEl0))
      (exec (.ld4HImm 30 .sp 2) ((start (pattern 0x1050)).writeSp 0x1050#64)) =
    some (0xDEDEDEDEDEDEDEDEDEDE5150DEDEDEDE#128, 0xC1C1C1C1C1C1C1C1C1C15756C1C1C1C1#128,
      0x1058#64, 0#64) := by decide

theorem test_V17_ld4HImm_wrap :
    shown (fun s => (s.readV 0, s.readV 1, s.readV 2, s.readX 5))
      (exec (.ld4HImm 0 (.x 5) 1)
        ((start [(1, 1#8), (2, 2#8), (3, 3#8), (0xFFFFFFFFFFFFFFFC, 0xFC#8), (0xFFFFFFFFFFFFFFFD, 0xFD#8),
          (0xFFFFFFFFFFFFFFFE, 0xFE#8), (0xFFFFFFFFFFFFFFFF, 0xFF#8)]).writeX 5
            0xFFFFFFFFFFFFFFFC#64)) =
    some (0xC0C0C0C0C0C0C0C0C0C0C0C0FDFCC0C0#128, 0xC1C1C1C1C1C1C1C1C1C1C1C1FFFEC1C1#128,
      0xC2C2C2C2C2C2C2C2C2C2C2C20100C2C2#128, 0x4#64) := by decide

theorem test_V12_ld4HReg_same :
    shown (fun s => (s.readV 0, s.readV 3, s.readX 6))
      (exec (.ld4HReg 0 (.x 6) 5 6) ((start (pattern 0x1008)).writeX 6 0x1008#64)) =
    some (0xC0C0C0C00908C0C0C0C0C0C0C0C0C0C0#128, 0xC3C3C3C30F0EC3C3C3C3C3C3C3C3C3C3#128,
      0x2010#64) := by decide

theorem test_V13_ld4SImm :
    shown (fun s => (s.readV 20, s.readV 23, s.readX 10))
      (exec (.ld4SImm 20 (.x 10) 1) ((start (pattern 0x1040)).writeX 10 0x1040#64)) =
    some (0xD4D4D4D4D4D4D4D443424140D4D4D4D4#128, 0xD7D7D7D7D7D7D7D74F4E4D4CD7D7D7D7#128,
      0x1050#64) := by decide

theorem test_V14_ld4SReg_back :
    shown (fun s => (s.readV 31, s.readV 2, s.readX 0))
      (exec (.ld4SReg 31 (.x 0) 2 30)
        (((start (pattern 0x1060)).writeX 0 0x1060#64).writeX 30 0xFFFFFFFFFFFFFFF0#64)) =
    some (0xDFDFDFDF63626160DFDFDFDFDFDFDFDF#128, 0xC2C2C2C26F6E6D6CC2C2C2C2C2C2C2C2#128,
      0x1050#64) := by decide

theorem test_V15_ld4DImm :
    shown (fun s => (s.readV 0, s.readV 3, s.readX 0))
      (exec (.ld4DImm 0 (.x 0) 0) ((start (pattern 0x10A0)).writeX 0 0x10A0#64)) =
    some (0xC0C0C0C0C0C0C0C0A7A6A5A4A3A2A1A0#128, 0xC3C3C3C3C3C3C3C3BFBEBDBCBBBAB9B8#128,
      0x10C0#64) := by decide

theorem test_V16_ld4DReg_sp :
    shown (fun s => (s.readV 12, s.readV 15, s.readSp))
      (exec (.ld4DReg 12 .sp 1 9)
        (((start (pattern 0x10C0)).writeSp 0x10C0#64).writeX 9 0x40#64)) =
    some (0xC7C6C5C4C3C2C1C0CCCCCCCCCCCCCCCC#128, 0xDFDEDDDCDBDAD9D8CFCFCFCFCFCFCFCF#128,
      0x1100#64) := by decide

/-- Part 6, B1: the same load with `SCTLR_EL3.EE = 1`. -/
theorem test_B1_big_endian :
    shown (fun s => (s.readV 4, s.readV 7))
      (exec (.ld4H 4 (.x 15) 7)
        (withSctlr3 ((start (pattern 0x1010)).writeX 15 0x1010#64) 0x02000000#32)) =
    some (0x1011C4C4C4C4C4C4C4C4C4C4C4C4C4C4#128, 0x1617C7C7C7C7C7C7C7C7C7C7C7C7C7C7#128) := by
  decide

/-! ### Whole steps -/

/-- V2 through the fetch: the word in memory at the pc, `SP` as base, the list wraps. -/
theorem test_step_V2 :
    shown (fun s => (s.readV 29, s.readV 0, s.pc))
      (step (((start (pattern 0x1040)).writeSp 0x1040#64).withFetchWord 32 0x4D603FFD)) =
    some (0x40DDDDDDDDDDDDDDDDDDDDDDDDDDDDDD#128, 0x43C0C0C0C0C0C0C0C0C0C0C0C0C0C0C0#128,
      0x8004#64) := by decide

/-- A word placed at reset runs as the first instruction. -/
theorem test_step_from_reset :
    shown (fun s => (s.pc, s.readX 0)) (step (State.reset.withFetchWord 32 0x0DFFA400)) =
      some (4#64, 32#64) := by decide

/-- Without a word placed, the first step after reset is refused: four zero bytes are no word in scope. -/
theorem test_step_bare_reset :
    refusal (step State.reset) = some (.notInScope .outsideClass 0#32) := by decide

/-- A reserved word at EL3 enters the EL3 handler at offset 0x200 with `ESR = 0x02000000`. -/
theorem test_step_reserved :
    shown (fun s => (s.pc, s.bank3.esr, s.bank3.elr))
      (step ((start []).withFetchWord 32 0x0D612C00)) =
    some (0x200#64, 0x02000000#32, 0x8000#64) := by decide

/-- F9: a misaligned pc; `ESR = 0x8A000000`, `FAR` the pc. -/
theorem test_F9_pc_alignment :
    shown (fun s => (s.bank3.esr, s.bank3.far)) (step ((start []).setPc 0x8002#64)) =
      some (0x8A000000#32, 0x8002#64) := by decide

/-- A step of a program text held apart from memory (C21): the word of V10 at 0x8000, base and offset 0. -/
theorem test_step_text :
    shown (fun s => (s.readV 19, s.pc))
      (step ((start []).setProgram [(3, 3#8)]
        [(0x8000, 0x70#8), (0x8001, 0x20#8), (0x8002, 0xE4#8), (0x8003, 0x0D#8)])) =
    some (0xD3D3D3D3D3D3D3D3D3D3D3D3D3D3D303#128, 0x8004#64) := by decide

/-! ### Part 4 and Part 5: exceptions -/

/-- F1 with a 32-bit form: `SP = 0x1008`. -/
theorem test_F1_sp_alignment :
    shown (fun s => (s.bank3.esr, s.bank3.elr, s.pc, s.readV 0))
      (exec (.ld4S 0 .sp 0) ((start []).writeSp 0x1008#64)) =
    some (0x9A000000#32, 0x8000#64, 0x200#64, 0xC0C0C0C0C0C0C0C0C0C0C0C0C0C0C0C0#128) := by decide

/-- F2 with a post-indexed 32-bit form: `ALIGN_CHECK` at EL3, base 0x1001, no write-back. -/
theorem test_F2_data_alignment :
    shown (fun s => (s.bank3.esr, s.bank3.far, s.readX 1))
      (exec (.ld4SImm 0 (.x 1) 0) (withSctlr3 ((start []).writeX 1 0x1001#64) 2#32)) =
    some (0x96000021#32, 0x1001#64, 0x1001#64) := by decide

/-- F5: element 2 starts beyond the readable island; no write-back. -/
theorem test_F5_unreadable :
    shown (fun s => (s.bank3.far, s.readX 2, s.bank3.elr))
      (exec (.ld4SReg 8 (.x 2) 1 3)
        (((withRegions (start []) islands).writeX 2 0x10F8#64).writeX 3 0x10#64)) =
    some (0x1100#64, 0x10F8#64, 0x8000#64) := by decide

/-- F6: the SIMD trap comes before the SP alignment fault; the trap enters EL1 from a lower level. -/
theorem test_F6_trap_first :
    shown (fun s => (s.bank1.esr, s.pc, s.pstate.el, s.spEl0))
      (exec (.ld4BImm 0 .sp 0)
        ((atLevel (withEls (start []) false false) .el0 false).writeSp 0x2004#64)) =
    some (0x1FE00000#32, 0x400#64, .el1, 0x2004#64) := by decide

/-- F8: alignment before accessibility, and accessibility alone. -/
theorem test_F8_priority :
    shown (fun s => (s.bank3.esr, s.bank3.far))
      (exec (.ld4D 0 (.x 0) 0)
        (withSctlr3 ((withRegions (start []) islands).writeX 0 0x2004#64) 2#32)) =
      some (0x96000021#32, 0x2004#64) ∧
    shown (fun s => s.bank3.far)
      (exec (.ld4D 0 (.x 0) 0) ((withRegions (start []) islands).writeX 0 0x2004#64)) =
      some 0x2004#64 := by decide

/-- T2, T3, T8, T10, T14, T16, T19: the result of `CheckSIMDEnabled()`. -/
theorem test_part5_traps :
    checkSimdEnabled (withSys (atLevel (withEls (start []) false false) .el0 false) 0x100000#32 0 0 0 0) =
      .error (.raise (.simdAccessTrap .el1)) ∧
    checkSimdEnabled (withSys (atLevel (withEls (start []) false false) .el1 true) 0x100000#32 0 0 0 0) =
      .ok () ∧
    checkSimdEnabled (withSys (atLevel (withEls (start []) true false) .el0 false) 0 0x400#32 0 0 0) =
      .error (.raise (.simdAccessTrap .el1)) ∧
    checkSimdEnabled
      (withSys (atLevel (withEls (start []) true false) .el0 false) 0x300000#32 0 0 0x8000000#64 0) =
      .ok () ∧
    checkSimdEnabled (withSys (atLevel (start []) .el1 true) 0x300000#32 0x400#32 0 0 0) = .ok () ∧
    checkSimdEnabled (withSys (atLevel (start []) .el1 true) 0x300000#32 0 0x400#32 0 1#32) =
      .error (.raise (.simdAccessTrap .el3)) ∧
    checkSimdEnabled
      (withSys (atLevel (withEls (start []) false true) .el0 false) 0x100000#32 0 0x400#32 0 0) =
      .error (.raise (.simdAccessTrap .el1)) := by decide

/-- T7: re-routed to EL2 as Undefined Instruction. -/
theorem test_T7_rerouted :
    shown (fun s => (s.bank2.esr, s.pstate.el))
      (exec (.ld4HReg 0 (.x 0) 0 1)
        (withSys (atLevel (withEls (start []) true false) .el0 false) 0 0 0 0x8000000#64 0)) =
    some (0x02000000#32, .el2) := by decide

/-! ### Witnesses: the hypotheses of each statement are met -/

/-- A state that is ready for every form with base X0 or SP: EL3, X0 = SP = 0x1000. -/
def ready : State := ((start []).writeX 0 0x1000#64).writeSp 0x1000#64

/-- The state with a word at its pc. -/
def fetching (w : Nat) : State := ready.withFetchWord 32 w

/-- A Non-secure EL1 state with EL2 and EL3, SIMD enabled. -/
def normalWorld : State := withSys (atLevel ready .el1 true) 0x300000#32 0 0 0 1#32

theorem test_witness_DecodeInvertsEncode :
    (Instr.ld4B 31 .sp 15).wellFormed = true ∧ (Instr.ld4DReg 31 (.x 30) 1 30).wellFormed = true := by
  decide

theorem test_witness_EncodeInvertsDecode : decode 0x4DFEA01F#32 = .instr (.ld4SReg 31 (.x 0) 2 30) := by
  decide

/-- Each class of words has a member, by the clause of the statement. -/
theorem test_witness_DecodeFollowsTheAlgorithm :
    (BitVec.extractLsb' 24 6 0xD503201F#32 ≠ 0b001101#6) ∧
    (BitVec.getLsbD 0x0D202C00#32 31 = false ∧ BitVec.extractLsb' 24 6 0x0D202C00#32 = 0b001101#6 ∧
      BitVec.getLsbD 0x0D202C00#32 22 = false) ∧
    (BitVec.extractLsb' 23 1 0x0D612C00#32 = 0#1 ∧ BitVec.extractLsb' 16 5 0x0D612C00#32 ≠ 0#5) ∧
    (BitVec.extractLsb' 14 2 0x4D603FFD#32 = 0b00#2) ∧
    (BitVec.extractLsb' 14 2 0x0D606400#32 = 0b01#2 ∧ BitVec.getLsbD 0x0D606400#32 10 = true) ∧
    (BitVec.extractLsb' 14 2 0x4D6079E4#32 = 0b01#2 ∧ BitVec.getLsbD 0x4D6079E4#32 10 = false) ∧
    (BitVec.extractLsb' 14 2 0x0D60A800#32 = 0b10#2 ∧ BitVec.getLsbD 0x0D60A800#32 11 = true) ∧
    (BitVec.extractLsb' 14 2 0x4D60B3E0#32 = 0b10#2 ∧ BitVec.extractLsb' 10 2 0x4D60B3E0#32 = 0b00#2) ∧
    (BitVec.extractLsb' 14 2 0x0D60B400#32 = 0b10#2 ∧ BitVec.extractLsb' 10 2 0x0D60B400#32 = 0b01#2 ∧
      BitVec.extractLsb' 12 1 0x0D60B400#32 = 1#1) ∧
    (BitVec.extractLsb' 14 2 0x4D60A45D#32 = 0b10#2 ∧ BitVec.extractLsb' 10 2 0x4D60A45D#32 = 0b01#2 ∧
      BitVec.extractLsb' 12 1 0x4D60A45D#32 = 0#1) ∧
    (BitVec.extractLsb' 14 2 0x0D60F000#32 = 0b11#2 ∧ BitVec.extractLsb' 12 1 0x0D60F000#32 = 1#1) ∧
    (BitVec.extractLsb' 14 2 0x0D60E000#32 = 0b11#2 ∧ BitVec.extractLsb' 12 1 0x0D60E000#32 = 0#1) ∧
    (FetchReady (fetching 0x0D612C00) ∧ WordAt (fetching 0x0D612C00) 0x0D612C00#32 ∧
      decode 0x0D612C00#32 = .reserved .offsetWithoutPostIndex) ∧
    (FetchReady (fetching 0xD503201F) ∧ WordAt (fetching 0xD503201F) 0xD503201F#32 ∧
      decode 0xD503201F#32 = .notInScope .outsideClass) := by decide

theorem test_witness_StepRunsTheDecodedInstruction :
    FetchReady (fetching 0x4D60A400) ∧ WordAt (fetching 0x4D60A400) 0x4D60A400#32 ∧
      decode 0x4D60A400#32 = .instr (.ld4D 0 (.x 0) 1) := by decide

theorem test_witness_FetchChecksThePc :
    (Admitted (ready.setPc 0x8003#64) ∧ (ready.setPc 0x8003#64).pc.toNat % 4 ≠ 0) ∧
    (Admitted ((withRegions ready islands).setPc 0x8100#64) ∧
      ((withRegions ready islands).setPc 0x8100#64).pc.toNat % 4 = 0 ∧
      ¬CodeExecutable ((withRegions ready islands).setPc 0x8100#64)) ∧
    (LoadReady (ready.setPc 0xFFFFFFFFFFFFFFFC#64) .sp .d ∧
      (ready.setPc 0xFFFFFFFFFFFFFFFC#64).pc.toNat % 4 = 0) := by decide

theorem test_witness_IllegalStateIsTakenBeforeDecoding :
    let s := ready.setPstate { ready.pstate with il := true }
    Admitted s ∧ s.pc.toNat % 4 = 0 ∧ CodeExecutable s ∧ CodeUnshared s ∧ s.pstate.il = true := by
  decide

/-- A shared code byte, the last of the word. -/
theorem test_witness_UnadmittedStepsAreRefused :
    (ready.setPstate { ready.pstate with nRW := true }).pstate.nRW = true ∧
    ({ ready with dbg := { ready.dbg with halted := true } } : State).dbg.halted = true ∧
    (ready.setPstate { ready.pstate with ss := true }).pstate.ss = true ∧
    ({ ready with dbg := { ready.dbg with events := true } } : State).dbg.events = true ∧
    ({ ready with hidden := { ready.hidden with serror := true } } : State).hidden.serror = true ∧
    (let s := withRegions ready [openRegion 0x8003 1 .shared, openRegion 0x8000 0x100 .normal]
     Admitted s ∧ s.pc.toNat % 4 = 0 ∧ CodeExecutable s ∧ ¬CodeUnshared s) := by decide

theorem test_witness_InstructionFetchIsLittleEndian : ready.bigEndianData = false ∧ 3 < 4 := by decide

theorem test_witness_PlacedWordIsFetched :
    Memory.wf (start (pattern 0x7FFF)).mem = true ∧ 0xFFFFFFFF < 2 ^ 32 ∧
      ∀ k, k < 4 → (0x7FFF#64 : Word) ≠ (start []).pc + BitVec.ofNat 64 k := by decide

/-- The last lane of each size, and both kinds of base. -/
theorem test_witness_NoOffsetFormsLoadTheStructure :
    (15 < 16 ∧ LoadReady ready .sp .b) ∧ (7 < 8 ∧ LoadReady ready (.x 0) .h) ∧
    (3 < 4 ∧ LoadReady normalWorld (.x 0) .s) ∧ (1 < 2 ∧ LoadReady normalWorld .sp .d) :=
  ⟨⟨by decide, by decide⟩, ⟨by decide, by decide⟩, ⟨by decide, by decide⟩, ⟨by decide, by decide⟩⟩

theorem test_witness_ImmediateFormsAdvanceTheBase :
    (15 < 16 ∧ LoadReady normalWorld .sp .b) ∧ (7 < 8 ∧ LoadReady normalWorld (.x 0) .h) ∧
    (3 < 4 ∧ LoadReady ready (.x 0) .s) ∧ (1 < 2 ∧ LoadReady ready .sp .d) :=
  ⟨⟨by decide, by decide⟩, ⟨by decide, by decide⟩, ⟨by decide, by decide⟩, ⟨by decide, by decide⟩⟩

/-- At EL0 with SIMD enabled, a base from which the structure wraps at the top of the address space. -/
def wrapping : State :=
  withSys (atLevel ((start []).writeX 30 0xFFFFFFFFFFFFFFFD#64) .el0 false) 0x300000#32 0 0 0 1#32

theorem test_witness_RegisterFormsAddTheOffset :
    LoadReady wrapping (.x 30) .b ∧ LoadReady wrapping (.x 30) .h ∧ LoadReady wrapping (.x 30) .s ∧
      LoadReady wrapping (.x 30) .d :=
  ⟨by decide, by decide, by decide, by decide⟩

theorem test_witness_RegisterCornerCases :
    ((Instr.ld4HReg 0 (.x 0) 7 0).wellFormed = true ∧ (Instr.ld4HReg 0 (.x 0) 7 0).base = .x 0 ∧
      (Instr.ld4HReg 0 (.x 0) 7 0).post = .reg 0 ∧ LoadReady ready (.x 0) .h) ∧
    ((ready.writeX 30 0xFFFFFFFFFFFFFFF0#64).readX 30 = -(16#64) ∧
      LoadReady (ready.writeX 30 0xFFFFFFFFFFFFFFF0#64) (.x 0) .s ∧
      (Instr.ld4SReg 31 (.x 0) 2 30).post = .reg 30) :=
  ⟨by decide, ⟨by decide, by decide, by decide⟩⟩

/-- One state for each clause: T7, T2, T9, T16 and T1 of Part 5. -/
theorem test_witness_SimdTrapDecision :
    (let s := withSys (atLevel (withEls ready true false) .el0 false) 0 0 0 0x8000000#64 0
     s.platform.advSimd = true ∧ s.e2h = false ∧ s.pstate.el = .el0 ∧ s.fpen ≠ 0b11#2 ∧
       s.platform.hasEl2 = true ∧ s.secure = false ∧ s.tge = true) ∧
    (let s := withSys (atLevel (withEls ready false false) .el0 false) 0x100000#32 0 0 0 0
     s.pstate.el = .el0 ∧ s.fpen ≠ 0b11#2 ∧ s.tge = false) ∧
    (let s := withSys (atLevel (withEls ready true false) .el0 false) 0x300000#32 0x400#32 0 0 0
     s.fpen = 0b11#2 ∧ s.platform.hasEl2 = true ∧ s.secure = false ∧ s.pstate.el ≠ .el3 ∧
       s.tfpEl2 = true) ∧
    (let s := withSys (atLevel ready .el1 true) 0x300000#32 0 0x400#32 0 1#32
     s.fpen = 0b11#2 ∧ s.tfpEl2 = false ∧ s.platform.hasEl3 = true ∧ s.tfpEl3 = true) ∧
    (normalWorld.fpen = 0b11#2 ∧ normalWorld.tfpEl2 = false ∧ normalWorld.tfpEl3 = false) := by decide

theorem test_witness_MissingSimdAndHostExtensions :
    ({ ready with platform := { ready.platform with advSimd := false } } : State).platform.advSimd =
      false ∧
    (ready.platform.advSimd = true ∧ ready.platform.hasEl2 = true ∧
      (withSys ready 0 0 0 0x400000000#64 0).e2h = true) := by decide

theorem test_witness_SpAlignmentIsChecked :
    (SimdEnabled (ready.writeSp 0x1008#64) ∧ (ready.writeSp 0x1008#64).readSp.toNat % 16 ≠ 0) ∧
    (let s := (ready.writeSp 0x1008#64).writeX 0 0x1001#64
     SimdEnabled s ∧ DataAligned s (s.readX 0) .d ∧ StructureReadable s (s.readX 0) .d) ∧
    (LoadReady ready .sp .b ∧ (Instr.ld4BImm 0 .sp 0).post = .imm ∧
      (Instr.ld4BReg 0 .sp 0 30).post = .reg 30 ∧ (Instr.ld4B 0 .sp 0).post = .none) :=
  ⟨by decide, by decide, by decide, by decide⟩

theorem test_witness_MisalignedElementsAbort :
    let s := withSctlr3 (ready.writeX 0 0x1007#64) 2#32
    SimdEnabled s ∧ SpAligned s (.x 0) ∧ s.alignCheck = true ∧
      (baseValue s (.x 0)).toNat % elemBytes .d ≠ 0 := by decide

/-- F5: byte 8 of the structure, the first of element 2. -/
theorem test_witness_UnreadableByteAborts :
    let s := (withRegions ready islands).writeX 0 0x10F8#64
    SimdEnabled s ∧ SpAligned s (.x 0) ∧ DataAligned s (baseValue s (.x 0)) .s ∧
      8 < 4 * elemBytes .s ∧ ¬ByteReadable s (baseValue s (.x 0)) 8 ∧
      (∀ j, j < 8 → ByteReadable s (baseValue s (.x 0)) j) ∧
      (∀ j, j < 8 / elemBytes .s * elemBytes .s → ¬ByteDevice s (baseValue s (.x 0)) j) := by decide

/-- The case of entry 12: byte 10 is unreadable, bytes 8 and 9 of its element are device bytes. -/
theorem test_witness_UnreadableByteAborts_device :
    let s := (withRegions ready [openRegion 0x1000 0x100 .normal, openRegion 0x1100 2 .device]).writeX 0
      0x10F8#64
    SimdEnabled s ∧ SpAligned s (.x 0) ∧ DataAligned s (baseValue s (.x 0)) .s ∧
      10 < 4 * elemBytes .s ∧ ¬ByteReadable s (baseValue s (.x 0)) 10 ∧
      (∀ j, j < 10 → ByteReadable s (baseValue s (.x 0)) j) ∧
      ByteDevice s (baseValue s (.x 0)) 8 ∧
      (∀ j, j < 10 / elemBytes .s * elemBytes .s → ¬ByteDevice s (baseValue s (.x 0)) j) := by decide

/-- A device byte in the last place of the structure. -/
theorem test_witness_DeviceMemoryIsRefused :
    let s := withRegions ready [openRegion 0x101F 1 .device, openRegion 0x1000 0x100 .normal]
    SimdEnabled s ∧ SpAligned s (.x 0) ∧ DataAligned s (baseValue s (.x 0)) .d ∧
      31 < 4 * elemBytes .d ∧ ByteDevice s (baseValue s (.x 0)) 31 ∧
      (∀ j, j < 31 → ¬ByteDevice s (baseValue s (.x 0)) j) ∧
      (∀ j, j < 31 / elemBytes .d * elemBytes .d + elemBytes .d →
        ByteReadable s (baseValue s (.x 0)) j) := by decide

/-- Two PSTATEs that differ in the level and agree in UAO and PAN. -/
theorem test_witness_SpsrHoldsThePstate :
    ready.pstate.uao = normalWorld.pstate.uao ∧ ready.pstate.pan = normalWorld.pstate.pan ∧
      ready.pstate.el ≠ normalWorld.pstate.el := by decide

theorem test_witness_ExceptionEntryFollowsTheRule : TargetEl.el2 ≠ TargetEl.el1 := by decide

/-- At EL0: to EL2 with TGE, to EL1 without; at EL1 the same level. -/
theorem test_witness_ExceptionRouting :
    (let s := withSys (atLevel ready .el0 false) 0 0 0 0x8000000#64 1#32
     s.pstate.el = .el0 ∧ s.platform.hasEl2 = true ∧ s.secure = false ∧ s.tge = true) ∧
    (let s := atLevel ready .el0 false
     s.pstate.el = .el0 ∧ s.tge = false) ∧
    (normalWorld.pstate.el ≠ .el0 ∧
      ∀ x, SyncException.undefinedInstruction ≠ .simdAccessTrap x) ∧
    simdTrap (atLevel ready .el0 false) = some (.simdAccessTrap .el1) := by
  refine ⟨by decide, by decide, ⟨by decide, fun x h => by cases h⟩, by decide⟩

theorem test_witness_ReturnUndoesTheEntry :
    let s := withSys (atLevel ready .el0 false) 0 0 0 0x8000000#64 1#32
    LegalMode s ∧ s.pstate.nRW = false ∧
      elRank s.pstate.el ≤ elRank (exceptionTarget .undefinedInstruction s).level ∧
      TargetEl.el1 ≠ exceptionTarget .undefinedInstruction s := by decide

/-- A state at EL3 or EL2 about to return with a saved status. -/
def returning (x : TargetEl) (r : BitVec 32) : State :=
  (atLevel ready x.level true).setBank x { ready.bank x with spsr := r }

/-- EL0; AArch32; EL1 with SP_EL1 (legal, no bit of an illegal mode); bit 1; EL0 with SPSel 1; EL3 from
EL2; EL3 not implemented; EL2 while Secure. -/
theorem test_witness_ExceptionReturnFollowsTheRule :
    (atLevel ready .el0 false).pstate.el = .el0 ∧
    ((returning .el3 0x10#32).pstate.el = TargetEl.level .el3 ∧ BitVec.getLsbD 0x10#32 4 = true) ∧
    (BitVec.getLsbD 0x5#32 4 = false ∧ BitVec.getLsbD 0x5#32 1 = false ∧
      BitVec.extractLsb' 2 2 0x5#32 = 1#2 ∧ haveEl ready.platform .el1 = true) ∧
    BitVec.getLsbD 0x2#32 1 = true ∧
    (BitVec.extractLsb' 2 2 0x1#32 = 0#2 ∧ BitVec.getLsbD 0x1#32 0 = true) ∧
    elRank (TargetEl.level .el2) < (BitVec.extractLsb' 2 2 0xD#32).toNat ∧
    haveEl (withEls ready true false).platform (elOfBits (BitVec.extractLsb' 2 2 0xD#32)) = false ∧
    (BitVec.extractLsb' 2 2 0x9#32 = 2#2 ∧ (returning .el3 0x9#32).platform.hasEl3 = true ∧
      (returning .el3 0x9#32).sys.scrEl3.getLsbD 0 = false) := by decide

/-- R29: `M = 0b0001` names no mode, so a return to it sets PSTATE.IL and stays at EL3; `M = 0b0101` is
EL1 with SP_EL1. -/
theorem test_exceptionReturn_modes :
    shown (fun s => (s.pstate.il, s.pstate.el)) (exceptionReturn (returning .el3 0x1#32)) =
      some (true, .el3) ∧
    shown (fun s => (s.pstate.il, s.pstate.el)) (exceptionReturn (returning .el3 0x5#32)) =
      some (false, .el1) := by decide

/-- At EL0 with `FPEN = 01`, and at EL1 with `FPEN = 10`. -/
theorem test_witness_TrappedLoadRunsAgainAfterReturn :
    (let s := withSys (atLevel ready .el0 false) 0x100000#32 0 0 0 1#32
     (Instr.ld4BImm 29 (.x 0) 15).wellFormed = true ∧ LegalMode s ∧ s.pstate.nRW = false ∧
       LoadReady (withCpacr s 0x300000#32) (.x 0) .b ∧ s.pstate.el = .el0 ∧ s.fpen ≠ 0b11#2 ∧
       s.tge = false) ∧
    (let s := withSys (atLevel ready .el1 true) 0x200000#32 0 0 0 1#32
     LegalMode s ∧ s.pstate.nRW = false ∧ LoadReady (withCpacr s 0x300000#32) (.x 0) .b ∧
       s.pstate.el = .el1 ∧ s.fpen = 0b10#2) :=
  ⟨by decide, by decide⟩

/-- A step that completes from a state with the invariant. -/
theorem test_witness_EveryStepKeepsTheInvariant :
    Inv (fetching 0x0DFFA400) ∧ ∃ s', step (fetching 0x0DFFA400) = .next s' :=
  ⟨by decide, _, rfl⟩

theorem test_witness_NoStepChangesTheConfiguration :
    ∃ s', step (fetching 0x0DFFA400) = .next s' := ⟨_, rfl⟩

/-- A step that raises the level: the SIMD trap at EL0. -/
theorem test_witness_NoStepLowersTheLevel :
    let s := atLevel (fetching 0x0DFFA400) .el0 false
    s.pstate.el = .el0 ∧ shown (fun t => t.pstate.el) (step s) = some .el1 := by decide

/-- Both ends of a step: completed, and a handler entered. -/
theorem test_witness_EveryStepCompletesOrEntersAHandler :
    shown (fun t => t.pc) (step (fetching 0x0DFFA400)) = some 0x8004#64 ∧
    shown (fun t => t.pc) (step (fetching 0x0D612C00)) = some 0x200#64 := by decide

/-- The three outcomes: a form completes, a reserved word faults, a word not in scope is refused. -/
theorem test_witness_StepTakesTheOutcome :
    (∃ s', stepOutcome (fetching 0x0DFFA400) = .next s') ∧
    stepOutcome (fetching 0x0D612C00) = .fault .undefinedInstruction (fetching 0x0D612C00) ∧
    stepOutcome (fetching 0xD503201F) = .refused (.notInScope .outsideClass 0xD503201F#32) :=
  ⟨⟨_, rfl⟩, rfl, rfl⟩

/-- A fault of the fetch, and F5's Data Abort of a form whose word is at the pc. -/
theorem test_witness_FaultLeavesTheState :
    stepOutcome (ready.setPc 0x8003#64) =
      .fault (.pcAlignmentFault 0x8003#64) (ready.setPc 0x8003#64) ∧
    ∃ s₁, stepOutcome ((withRegions (fetching 0x0DFFA400) islands).writeX 0 0x10F0#64) =
      .fault (.dataAbortOther 0x1100#64) s₁ :=
  ⟨rfl, _, rfl⟩

/-- The state with a word at its pc, and a vector base from which the handler of an exception of EL3 starts
at the next word. -/
def nextWordHandler (w : Nat) : State :=
  let s := fetching w
  s.setBank .el3 { s.bank3 with vbar := 0x7E04#64 }

/-- A fault whose handler is the next word ends a run as a fault (R118), although the machine's step goes
to `pc + 4` in the same PSTATE. -/
theorem test_run_ends_at_the_fault :
    shown (fun s => (s.pc, s.pstate.el)) (step (nextWordHandler 0x0D612C00)) = some (0x8004#64, .el3) ∧
    runWords 1 (nextWordHandler 0x0D612C00) =
      .fault .undefinedInstruction (nextWordHandler 0x0D612C00) :=
  ⟨by decide, rfl⟩

/-- A run of one word that ends with `Done`, one that ends at a fault and one that is refused. -/
theorem test_witness_RunEndsAsTheRuleSays :
    (∃ s', runWords 1 (fetching 0x0DFFA400) = .next s') ∧
    (∃ s', runWords 2 (fetching 0x0D612C00) = .fault .undefinedInstruction s') ∧
    runWords 3 (fetching 0xD503201F) = .refused (.notInScope .outsideClass 0xD503201F#32) :=
  ⟨⟨_, rfl⟩, ⟨_, rfl⟩, rfl⟩

theorem test_witness_CompletedRunAdvancesThePc :
    ∃ s', CompletesRun 1 (fetching 0x0DFFA400) s' :=
  ⟨_, .step ⟨.ld4DImm 0 (.x 0) 0, rfl, by decide, rfl⟩ (.done _)⟩

theorem test_witness_FlagsDoNotMatter :
    LoadReady ready (.x 0) .d ∧ ∃ s', exec (.ld4DImm 0 (.x 0) 0) ready = .next s' :=
  ⟨by decide, _, rfl⟩

theorem test_witness_UnnamedGeneralRegistersDoNotMatter :
    (Instr.ld4BReg 0 (.x 0) 0 1).base ≠ .x 30 ∧ (Instr.ld4BReg 0 (.x 0) 0 1).post ≠ .reg 30 := by
  decide

theorem test_witness_ResetStateFollowsTheRule :
    haveEl referencePlatform .el3 = true ∧ referencePlatform.hasEl3 = true ∧
    (State.resetOn { referencePlatform with hasEl3 := false, secureOnly := true }).pstate.el = .el2 := by
  decide

theorem test_witness_StackPointerSelection :
    (atLevel ready .el1 false).pstate.spSel = false ∧
    ((atLevel ready .el0 true).pstate.spSel = true ∧ (atLevel ready .el0 true).pstate.el = .el0) ∧
    (ready.pstate.spSel = true ∧ ready.pstate.el = TargetEl.level .el3) ∧
    EL.el0 ≠ selectedStack ready := by decide

theorem test_witness_LevelSelectsTheControls :
    (atLevel ready .el0 false).pstate.el = .el0 ∧ ready.pstate.el = TargetEl.level .el3 ∧
    ready.platform.hasEl3 = true ∧ normalWorld.pstate.el ≠ .el3 ∧
    (withEls ready true false).platform.hasEl3 = false := by decide

theorem test_witness_ElementsAreBitFields :
    15 < ElemSize.lanes .b ∧ 1 < ElemSize.lanes .d ∧ 127 < 128 ∧ 0 ≠ 1 := by decide

theorem test_witness_LittleEndianRead :
    ready.bigEndianData = false ∧ memRead ready 0xFFFFFFFFFFFFFFFF#64 .d = .ok 0#64 := by decide

theorem test_witness_BigEndianRead :
    (withSctlr3 (start (pattern 0x1010)) 0x02000000#32).bigEndianData = true ∧
    memRead (withSctlr3 (start (pattern 0x1010)) 0x02000000#32) 0x1010#64 .h = .ok 0x1011#64 ∧
    readStructure (start (pattern 0x1010)) 0x1010#64 .b =
      .ok [0x10#64, 0x11#64, 0x12#64, 0x13#64] ∧
    memRead (start (pattern 0x1010)) 0x1013#64 .b = .ok 0x13#64 := by decide

theorem test_witness_EqualReadsMeanEqualMemories :
    Memory.wf (pattern 0x10F0) = true ∧ Memory.wf [] = true := by decide

end Sys2Proof.Tests
end

section
/-!
PROOFS. The statements of `10_state.md`.
-/

namespace Sys2Proof.Machine

open Sys2Proof.Safety

/-- Two lanes share no bit: bit `j` of one element is outside every other. -/
theorem not_inLane_of_ne {sz : ElemSize} {e e' j : Nat} (hne : e' ≠ e) (hj : j < elemBits sz) :
    ¬InLane e sz (e' * elemBits sz + j) := by
  rintro ⟨lower, upper⟩
  rw [← Nat.succ_mul] at upper
  rcases Nat.lt_or_gt_of_ne hne with below | above
  · have := Nat.mul_le_mul_right (elemBits sz) (Nat.succ_le_of_lt below)
    rw [Nat.succ_mul] at this
    omega
  · have := Nat.mul_le_mul_right (elemBits sz) (Nat.succ_le_of_lt above)
    omega

theorem elemBits_le (sz : ElemSize) : elemBits sz ≤ 64 := Nat.mul_le_mul_left 8 (elemBytes_le sz)

/-- Writing one element leaves every other element as it was. -/
theorem elem_setElem_of_ne (v : VWord) {sz : ElemSize} {e e' : Nat} (x : BitVec 64)
    (he' : e' < sz.lanes) (hne : e' ≠ e) :
    elem (setElem v e (elemBits sz) x) e' (elemBits sz) = elem v e' (elemBits sz) := by
  have within := lane_within he'
  refine BitVec.eq_of_getLsbD_eq fun j _ => ?_
  rw [getLsbD_elem _ _ _ _ (elemBits_le sz), getLsbD_elem _ _ _ _ (elemBits_le sz)]
  by_cases hj : j < elemBits sz
  · rw [getLsbD_setElem _ _ _ _ _ (by omega), if_neg (not_inLane_of_ne hne hj)]
  · simp [hj]

end Sys2Proof.Machine

namespace Sys2Proof.Proofs

open Sys2Proof.Machine

/-- Settles O42: the bits of an element read and written, and the disjointness of the lanes. -/
theorem elementsAreBitFields : Obligations.ElementsAreBitFields := by
  refine ⟨lanes_mul_elemBits, fun v sz e x _ => ⟨?written, ?read, ?others⟩⟩
  case written => exact fun j hj => getLsbD_setElem v e (elemBits sz) x j hj
  case read =>
    intro j hj
    rw [getLsbD_elem v e _ j (elemBits_le sz), decide_eq_true hj, Bool.true_and]
  case others => exact fun e' he' hne => elem_setElem_of_ne v x he' hne

end Sys2Proof.Proofs
end

section
/-!
PROOFS. The statements of `20_memory.md`.
-/

namespace Sys2Proof.Machine

open Sys2Proof.Safety

variable (s : State)

/-! ### The value of an element in each byte order (R43, R44) -/

theorem elementValue_byte_littleEndian (a : Word) (sz : ElemSize) {k : Nat}
    (hle : s.bigEndianData = false) (hk : k < elemBytes sz) :
    (elementValue s a sz).extractLsb' (8 * k) 8 = s.dataByte (a + BitVec.ofNat 64 k) := by
  rw [elementValue_byte s a sz k hk, hle, if_neg Bool.false_ne_true]

theorem elementValue_byte_bigEndian (a : Word) (sz : ElemSize) {k : Nat}
    (hbe : s.bigEndianData = true) (hk : k < elemBytes sz) :
    (elementValue s a sz).extractLsb' (8 * k) 8 =
      s.dataByte (a + BitVec.ofNat 64 (elemBytes sz - 1 - k)) := by
  rw [elementValue_byte s a sz k hk, if_pos hbe]

/-- A list of one byte is its own reverse, so the byte order plays no part. -/
theorem elementValue_oneByte (a : Word) : elementValue s a .b = (s.dataByte a).setWidth 64 := by
  have bytes : (byteAddresses a (elemBytes .b)).map s.dataByte = [s.dataByte a] := by
    simp [byteAddresses, elemBytes]
  rw [elementValue, bytes, List.reverse_singleton, ite_self]
  simp [joinBytes]

/-- An element read that succeeds returns the value of the element. -/
theorem eq_elementValue_of_memRead {a : Word} {sz : ElemSize} {x : BitVec 64}
    (h : memRead s a sz = .ok x) : x = elementValue s a sz :=
  ((memRead_eq_ok_iff s a sz x).1 h).2.2

/-! ### SP as the base (R49) -/

/-- `CheckSPAlignment()` comes after the SIMD check and before every read of memory. -/
theorem ld4Load_misalignedSp (sz : ElemSize) (enabled : SimdEnabled s)
    (unaligned : s.readSp.toNat % 16 ≠ 0) :
    ld4Load .sp sz s = .error (.raise .spAlignmentFault) := by
  have base : readBase s .sp = .error (.raise .spAlignmentFault) := by
    rw [readBase_eq, if_pos ⟨rfl, unaligned⟩]
  simp only [ld4Load, (checkSimdEnabled_eq_ok_iff s).2 enabled, base]

/-- A base of X0 to X30 passes `CheckSPAlignment()` whatever SP is. -/
theorem spAligned_x (n : Fin 31) : SpAligned s (.x n) := fun h => nomatch h

section Commit

variable (t : Fin 32) (index : Nat) (sz : ElemSize) (post : PostIndex) (base : Word)
  (es : List (BitVec 64))

theorem readSp_ld4Commit_kept (n : XSp) (h : offsetValue s sz post = none) :
    (ld4Commit t n index sz post base es s).readSp = s.readSp := by
  obtain ⟨-, sps⟩ := ld4Commit_baseKept s t n index sz post base es h
  rw [State.readSp, sps, State.spLevel, ld4Commit_pstate]
  rfl

theorem readSp_ld4Commit_written {offs : Word} (h : offsetValue s sz post = some offs) :
    (ld4Commit t .sp index sz post base es s).readSp = base + offs := by
  obtain ⟨-, sps⟩ := ld4Commit_baseWritten s t .sp index sz post base es h
  rw [State.readSp, sps, State.spLevel, ld4Commit_pstate]
  exact if_pos rfl

end Commit

end Sys2Proof.Machine

namespace Sys2Proof.Proofs

open Sys2Proof.Machine

/-- Settles O10: both sides of the second clause are the data byte at the address plus `k`. -/
theorem instructionFetchIsLittleEndian : Obligations.InstructionFetchIsLittleEndian := by
  refine ⟨fetchedWord_byte, fun s a k hle hk => ?_⟩
  rw [elementValue_byte_littleEndian s a .s hle hk, elementValue_oneByte,
    BitVec.setWidth_setWidth_of_le _ (by decide), BitVec.setWidth_eq]

/-- Settles O18: the fault comes from the check of the old SP, the completions from R82, which asks
nothing of SP under an X base nor of the SP written back. -/
theorem spAlignmentIsChecked : Obligations.SpAlignmentIsChecked := by
  refine ⟨fun i s enabled hb unaligned => ?fault, fun i n s enabled hb aligned readable => ?xBase,
    fun i s ready hb => ⟨_, exec_ready s i ready, ?writtenBack⟩⟩
  case fault =>
    refine exec_fault s i ?_
    rw [hb]
    exact ld4Load_misalignedSp s i.elemSize enabled unaligned
  case xBase =>
    refine ⟨_, exec_ready s i ?_, ld4Commit_pc ..⟩
    rw [hb]
    exact ⟨enabled, spAligned_x s n, aligned, readable⟩
  case writtenBack =>
    rw [hb]
    refine ⟨fun hp => ?_, fun m hp => ?_, fun hp => ?_⟩ <;> rw [hp]
    · exact readSp_ld4Commit_written s _ _ _ _ _ _ rfl
    · exact readSp_ld4Commit_written s _ _ _ _ _ _ rfl
    · exact readSp_ld4Commit_kept s _ _ _ _ _ _ _ rfl

/-- Settles O43, by the bytes and the bound of an element's value. -/
theorem littleEndianRead : Obligations.LittleEndianRead := by
  intro s a sz x hle h
  obtain rfl := eq_elementValue_of_memRead s h
  exact ⟨fun k hk => elementValue_byte_littleEndian s a sz hle hk, elementValue_toNat_lt s a sz⟩

/-- Settles O44: the order of the bytes enters an element's value only, the addresses of the elements
are the same in both orders. -/
theorem bigEndianRead : Obligations.BigEndianRead := by
  refine ⟨fun s a sz x hbe h k hk => ?reversed, fun s base sz es h => ?increasing,
    fun s a x h => ?oneByte⟩
  case reversed =>
    obtain rfl := eq_elementValue_of_memRead s h
    exact elementValue_byte_bigEndian s a sz hbe hk
  case increasing =>
    obtain ⟨_, _, _, _, rfl, reads⟩ := (readStructure_eq_ok_iff s base sz es).1 h
    exact ⟨rfl, reads⟩
  case oneByte => rw [eq_elementValue_of_memRead s h, elementValue_oneByte]

end Sys2Proof.Proofs
end

section
/-!
PROOFS. The statements of `30_encoding.md`.
-/

namespace Sys2Proof

/-- A load of four registers in the class (`30_encoding.md` R65): the fixed bits, `L = 1`, `R = 1` and
`opcode<0> = 1`. -/
structure LoadsFour (w : InstrWord) : Prop where
  bit31 : w.getLsbD 31 = false
  cls : fieldClass w = 0b001101#6
  load : fieldL w = 1#1
  pair : fieldR w = 1#1
  odd : (fieldOpcode w).getLsbD 0 = true

/-! ### What the decoder answers, by the lines of R70 -/

theorem bit_ne_zero_iff (b : BitVec 1) : b ≠ 0#1 ↔ b = 1#1 := by revert b; decide

theorem extractLsb'_one_eq_one_iff (w : InstrWord) (j : Nat) :
    w.extractLsb' j 1 = 1#1 ↔ w.getLsbD j = true := by
  rw [BitVec.getLsbD_eq_extractLsb', beq_iff_eq]

theorem extractLsb'_one_eq_zero_iff (w : InstrWord) (j : Nat) :
    w.extractLsb' j 1 = 0#1 ↔ w.getLsbD j = false := by
  rw [← Bool.not_eq_true, ← extractLsb'_one_eq_one_iff, ← bit_ne_zero_iff, not_not]

theorem decode_outsideClass {w : InstrWord}
    (h : ¬(w.getLsbD 31 = false ∧ fieldClass w = 0b001101#6)) :
    decode w = .notInScope .outsideClass := by
  rw [decode, if_pos]
  cases h31 : w.getLsbD 31 with
  | true => rfl
  | false => exact bne_iff_ne.2 fun hc => h ⟨h31, hc⟩

theorem decode_notLoadFour {w : InstrWord} (h31 : w.getLsbD 31 = false)
    (hc : fieldClass w = 0b001101#6)
    (h : ¬(fieldL w = 1#1 ∧ fieldR w = 1#1 ∧ (fieldOpcode w).getLsbD 0 = true)) :
    ∃ why, decode w = .notInScope why := by
  have hclass : ¬(w.getLsbD 31 || fieldClass w != 0b001101#6) = true := by rw [h31, hc]; decide
  rw [decode, if_neg hclass]
  split
  · exact ⟨_, rfl⟩
  next hl =>
    split
    · split <;> exact ⟨_, rfl⟩
    next ho =>
      split
      · exact ⟨_, rfl⟩
      next hr =>
        exact absurd ⟨(bit_ne_zero_iff _).1 hl, (bit_ne_zero_iff _).1 hr, by simpa using ho⟩ h

namespace LoadsFour

variable {w : InstrWord} (h : LoadsFour w)

include h

theorem wordOfFields_eq :
    wordOfFields (fieldQ w) (fieldP w) (fieldRm w) (fieldOpcode w) (fieldS w) (fieldSize w) (fieldRn w)
      (fieldRt w) = w :=
  wordOfFields_fields w h.bit31 h.cls h.load h.pair

theorem decode_reservedOffset (hp : fieldP w = 0#1) (hrm : fieldRm w ≠ 0#5) :
    decode w = .reserved .offsetWithoutPostIndex := by
  rw [← h.wordOfFields_eq, decode_wordOfFields, if_neg (by simp [h.odd]), if_pos (by simp [hp, hrm])]

theorem decode_sizeError (hp : fieldP w = 0#1 → fieldRm w = 0#5) {other : Decoded}
    (hs : sizeOfFields (fieldOpcode w) (fieldS w) (fieldSize w) = .error other) :
    decode w = other := by
  rw [← h.wordOfFields_eq, decode_wordOfFields, if_neg (by simp [h.odd]), if_neg (by simpa using hp)]
  simp only [hs]

theorem decode_sizeOk (hp : fieldP w = 0#1 → fieldRm w = 0#5) {sz : ElemSize}
    (hs : sizeOfFields (fieldOpcode w) (fieldS w) (fieldSize w) = .ok sz) :
    decode w = .instr (Instr.ofOperands sz (postOfFields (fieldP w) (fieldRm w))
      (vregOfField (fieldRt w)) (baseOfField (fieldRn w))
      (laneOfFields sz (fieldQ w) (fieldS w) (fieldSize w))) := by
  have answer := decode_wordOfFields (fieldQ w) (fieldP w) (fieldRm w) (fieldOpcode w) (fieldS w)
    (fieldSize w) (fieldRn w) (fieldRt w)
  rw [h.wordOfFields_eq, if_neg (by simp [h.odd]), if_neg (by simpa using hp)] at answer
  simpa only [hs] using answer

end LoadsFour

/-! ### The operands the fields name (R65, R68) -/

theorem vregOfField_fieldRt (w : InstrWord) :
    vregOfField (fieldRt w) = ⟨w.toNat % 32, Nat.mod_lt _ (by decide)⟩ := by
  apply Fin.ext
  simp [vregOfField, fieldRt]

theorem baseOfField_eq_sp_iff (rn : BitVec 5) : baseOfField rn = .sp ↔ rn = 31#5 := by
  revert rn; decide

theorem baseOfField_eq_x_iff (rn : BitVec 5) (j : Fin 31) :
    baseOfField rn = .x j ↔ j.val = rn.toNat := by
  unfold baseOfField
  split
  · simp [Fin.ext_iff, eq_comm]
  · simp only [reduceCtorEq, false_iff]
    omega

theorem postOfFields_eq_none_iff (p : BitVec 1) (rm : BitVec 5) :
    postOfFields p rm = .none ↔ p = 0#1 := by
  revert p rm; decide

theorem postOfFields_eq_imm_iff (p : BitVec 1) (rm : BitVec 5) :
    postOfFields p rm = .imm ↔ p = 1#1 ∧ rm = 31#5 := by
  revert p rm; decide

theorem postOfFields_eq_reg_iff (p : BitVec 1) (rm : BitVec 5) (m : Fin 31) :
    postOfFields p rm = .reg m ↔ p = 1#1 ∧ m.val = rm.toNat := by
  rw [← bit_ne_zero_iff]
  unfold postOfFields
  split
  next hp => simp [hp]
  next hp =>
    split
    · simp [hp, Fin.ext_iff, eq_comm]
    · simp only [reduceCtorEq, false_iff]
      omega

/-- The base and the post-index operand are those that `Rn`, `P` and `Rm` name (R65, R68). -/
def OperandsNamed (w : InstrWord) (n : XSp) (post : PostIndex) : Prop :=
  (n = .sp ↔ fieldRn w = 31#5) ∧ (∀ j, n = .x j ↔ j.val = (fieldRn w).toNat) ∧
    (post = .none ↔ fieldP w = 0#1) ∧ (post = .imm ↔ fieldP w = 1#1 ∧ fieldRm w = 31#5) ∧
    (∀ m, post = .reg m ↔ fieldP w = 1#1 ∧ m.val = (fieldRm w).toNat)

theorem operandsNamed_fields (w : InstrWord) :
    OperandsNamed w (baseOfField (fieldRn w)) (postOfFields (fieldP w) (fieldRm w)) :=
  ⟨baseOfField_eq_sp_iff _, baseOfField_eq_x_iff _, postOfFields_eq_none_iff _ _,
    postOfFields_eq_imm_iff _ _, postOfFields_eq_reg_iff _ _⟩

/-- The word decodes to a form of this size and lane whose registers and post-index operand are those of
its fields. -/
def DecodesTo (w : InstrWord) (sz : ElemSize) (index : Nat) : Prop :=
  ∃ post n, decode w =
      .instr (Instr.ofOperands sz post ⟨w.toNat % 32, Nat.mod_lt _ (by decide)⟩ n index) ∧
    OperandsNamed w n post

theorem LoadsFour.decodesTo {w : InstrWord} (h : LoadsFour w) (hp : fieldP w = 0#1 → fieldRm w = 0#5)
    {sz : ElemSize} (hs : sizeOfFields (fieldOpcode w) (fieldS w) (fieldSize w) = .ok sz) :
    DecodesTo w sz (laneOfFields sz (fieldQ w) (fieldS w) (fieldSize w)) :=
  ⟨_, _, vregOfField_fieldRt w ▸ h.decode_sizeOk hp hs, operandsNamed_fields w⟩

/-! ### The element size, by the rows of R66 and R71 -/

section Size

variable {opcode : BitVec 3} {s : BitVec 1} {size : BitVec 2}

theorem sizeOfFields_eq_b (ho : opcode.extractLsb' 1 2 = 0b00#2) :
    sizeOfFields opcode s size = .ok .b := by
  revert opcode s size; decide

theorem sizeOfFields_halfwordOddSize (ho : opcode.extractLsb' 1 2 = 0b01#2)
    (hz : size.getLsbD 0 = true) :
    sizeOfFields opcode s size = .error (.reserved .halfwordOddSize) := by
  revert opcode s size; decide

theorem sizeOfFields_eq_h (ho : opcode.extractLsb' 1 2 = 0b01#2) (hz : size.getLsbD 0 = false) :
    sizeOfFields opcode s size = .ok .h := by
  revert opcode s size; decide

theorem sizeOfFields_wordHighSize (ho : opcode.extractLsb' 1 2 = 0b10#2)
    (hz : size.getLsbD 1 = true) :
    sizeOfFields opcode s size = .error (.reserved .wordHighSize) := by
  revert opcode s size; decide

theorem sizeOfFields_eq_s (ho : opcode.extractLsb' 1 2 = 0b10#2) (hz : size = 0b00#2) :
    sizeOfFields opcode s size = .ok .s := by
  revert opcode s size; decide

theorem sizeOfFields_doublewordWithS (ho : opcode.extractLsb' 1 2 = 0b10#2) (hz : size = 0b01#2)
    (hs : s = 1#1) : sizeOfFields opcode s size = .error (.reserved .doublewordWithS) := by
  revert opcode s size; decide

theorem sizeOfFields_eq_d (ho : opcode.extractLsb' 1 2 = 0b10#2) (hz : size = 0b01#2)
    (hs : s = 0#1) : sizeOfFields opcode s size = .ok .d := by
  revert opcode s size; decide

theorem sizeOfFields_replicateWithS (ho : opcode.extractLsb' 1 2 = 0b11#2) (hs : s = 1#1) :
    sizeOfFields opcode s size = .error (.reserved .replicateWithS) := by
  revert opcode s size; decide

theorem sizeOfFields_ld4r (ho : opcode.extractLsb' 1 2 = 0b11#2) (hs : s = 0#1) :
    sizeOfFields opcode s size = .error (.notInScope .ld4r) := by
  revert opcode s size; decide

end Size

/-! ### The lane index as the concatenation R66 writes -/

theorem laneOfFields_b (q s : BitVec 1) (size : BitVec 2) :
    laneOfFields .b q s size = (q ++ s ++ size).toNat := by
  revert q s size; decide

theorem laneOfFields_h (q s : BitVec 1) (size : BitVec 2) :
    laneOfFields .h q s size = (q ++ s ++ size.extractLsb' 1 1).toNat := by
  revert q s size; decide

theorem laneOfFields_s (q s : BitVec 1) (size : BitVec 2) :
    laneOfFields .s q s size = (q ++ s).toNat := by
  revert q s size; decide

/-! ### Parts of fields, as bits of the word -/

theorem extractLsb'_extractLsb' (w : InstrWord) {start len i k : Nat} (h : i + k ≤ len) :
    (w.extractLsb' start len).extractLsb' i k = w.extractLsb' (start + i) k := by
  refine BitVec.eq_of_getLsbD_eq fun j hj => ?_
  have inside : i + j < len := by omega
  simp only [BitVec.getLsbD_extractLsb', inside, decide_true, Bool.true_and, Nat.add_assoc]

theorem fieldOpcode_high (w : InstrWord) : (fieldOpcode w).extractLsb' 1 2 = w.extractLsb' 14 2 :=
  extractLsb'_extractLsb' w (show 1 + 2 ≤ 3 by decide)

theorem fieldSize_high (w : InstrWord) : (fieldSize w).extractLsb' 1 1 = w.extractLsb' 11 1 :=
  extractLsb'_extractLsb' w (show 1 + 1 ≤ 2 by decide)

theorem fieldOpcode_bit0 (w : InstrWord) : (fieldOpcode w).getLsbD 0 = w.getLsbD 13 := by
  rw [fieldOpcode, BitVec.getLsbD_extractLsb']; rfl

theorem fieldSize_bit0 (w : InstrWord) : (fieldSize w).getLsbD 0 = w.getLsbD 10 := by
  rw [fieldSize, BitVec.getLsbD_extractLsb']; rfl

theorem fieldSize_bit1 (w : InstrWord) : (fieldSize w).getLsbD 1 = w.getLsbD 11 := by
  rw [fieldSize, BitVec.getLsbD_extractLsb']; rfl

/-- The three bits that make a word of the class a load of four, as the statement names them. -/
theorem loadFour_fields_iff (w : InstrWord) :
    (fieldL w = 1#1 ∧ fieldR w = 1#1 ∧ (fieldOpcode w).getLsbD 0 = true) ↔
      w.getLsbD 22 = true ∧ w.getLsbD 21 = true ∧ w.getLsbD 13 = true := by
  rw [fieldL, fieldR, extractLsb'_one_eq_one_iff, extractLsb'_one_eq_one_iff, fieldOpcode_bit0]

theorem LoadsFour.of_bits {w : InstrWord} (h31 : w.getLsbD 31 = false)
    (hc : fieldClass w = 0b001101#6)
    (h : w.getLsbD 22 = true ∧ w.getLsbD 21 = true ∧ w.getLsbD 13 = true) : LoadsFour w :=
  have ⟨hl, hr, odd⟩ := (loadFour_fields_iff w).2 h
  ⟨h31, hc, hl, hr, odd⟩

/-! ### The opcode table (R69) -/

/-- The bits of `S` and `size` that belong to the opcode, not to the lane index, for each size. -/
def selectorMask : ElemSize → BitVec 1 × BitVec 2
  | .b => (0#1, 0b00#2)
  | .h => (0#1, 0b01#2)
  | .s => (0#1, 0b11#2)
  | .d => (1#1, 0b11#2)

/-- The mask of a row: every bit but those of `Q`, of the lane index, of `Rn`, `Rt` and, in a register
form, of `Rm`. -/
def tableMask (sz : ElemSize) (rmMask : BitVec 5) : InstrWord :=
  BitVec.allOnes 1 ++ 0#1 ++ BitVec.allOnes 6 ++ BitVec.allOnes 1 ++ BitVec.allOnes 1 ++
    BitVec.allOnes 1 ++ rmMask ++ BitVec.allOnes 3 ++ (selectorMask sz).1 ++ (selectorMask sz).2 ++
    0#5 ++ 0#5

/-- The match of a row: its word with every operand field 0. -/
def tableMatch (sz : ElemSize) (p : BitVec 1) (rm : BitVec 5) : InstrWord :=
  wordOfFields 0#1 p rm (opcodeOfSize sz) (fieldsOfLane sz 0).2.1 (fieldsOfLane sz 0).2.2 0#5 0#5

theorem append_eq_append_iff {v n : Nat} {a b : BitVec v} {c d : BitVec n} :
    a ++ c = b ++ d ↔ a = b ∧ c = d := by
  refine ⟨fun h => ⟨?_, ?_⟩, fun ⟨hab, hcd⟩ => by rw [hab, hcd]⟩
  · simpa only [BitVec.extractLsb'_append_eq_left] using congrArg (·.extractLsb' n v) h
  · simpa only [BitVec.extractLsb'_append_eq_right] using congrArg (·.extractLsb' 0 n) h

theorem and_append_eq_append_iff {v n : Nat} {a m c : BitVec v} {b k d : BitVec n} :
    (a ++ b) &&& (m ++ k) = c ++ d ↔ a &&& m = c ∧ b &&& k = d := by
  rw [BitVec.and_append, append_eq_append_iff]

/-- Every word is its twelve fields in order (R65). -/
theorem append_fields (w : InstrWord) :
    w.extractLsb' 31 1 ++ fieldQ w ++ fieldClass w ++ fieldP w ++ fieldL w ++ fieldR w ++ fieldRm w ++
      fieldOpcode w ++ fieldS w ++ fieldSize w ++ fieldRn w ++ fieldRt w = w := by
  refine BitVec.eq_of_getLsbD_eq fun j hj => ?_
  simp only [fieldQ, fieldClass, fieldP, fieldL, fieldR, fieldRm, fieldOpcode, fieldS, fieldSize,
    fieldRn, fieldRt, BitVec.getLsbD_append, BitVec.getLsbD_extractLsb']
  interval_cases j <;> simp

/-- The selector bits of a load of four are those of a size exactly when the fields select it. -/
theorem selector_eq_iff (sz : ElemSize) (opcode : BitVec 3) (s : BitVec 1) (size : BitVec 2) :
    (opcode = opcodeOfSize sz ∧ s &&& (selectorMask sz).1 = (fieldsOfLane sz 0).2.1 ∧
      size &&& (selectorMask sz).2 = (fieldsOfLane sz 0).2.2) ↔
    opcode.getLsbD 0 = true ∧ sizeOfFields opcode s size = .ok sz := by
  revert opcode s size
  cases sz <;> decide

/-- A word matches a row under the row's mask exactly when its fields are those of the row. -/
theorem and_tableMask_eq_iff (w : InstrWord) (sz : ElemSize) (rmMask : BitVec 5) (p : BitVec 1)
    (rm : BitVec 5) :
    w &&& tableMask sz rmMask = tableMatch sz p rm ↔
      LoadsFour w ∧ sizeOfFields (fieldOpcode w) (fieldS w) (fieldSize w) = .ok sz ∧
        fieldP w = p ∧ fieldRm w &&& rmMask = rm := by
  have selector := selector_eq_iff sz (fieldOpcode w) (fieldS w) (fieldSize w)
  conv_lhs => rw [← append_fields w]
  unfold tableMask tableMatch wordOfFields
  refine (and_append_eq_append_iff (v := 1 + 1 + 6 + 1 + 1 + 1 + 5 + 3 + 1 + 2 + 5) (n := 5)).trans ?_
  simp only [and_append_eq_append_iff, BitVec.and_zero, BitVec.and_allOnes,
    extractLsb'_one_eq_zero_iff, and_assoc]
  constructor
  · rintro ⟨h31, -, hc, hp, hl, hr, hrm, ho, hs, hz, -, -⟩
    obtain ⟨odd, hsz⟩ := selector.1 ⟨ho, hs, hz⟩
    exact ⟨⟨h31, hc, hl, hr, odd⟩, hsz, hp, hrm⟩
  · rintro ⟨⟨h31, hc, hl, hr, odd⟩, hsz, hp, hrm⟩
    obtain ⟨ho, hs, hz⟩ := selector.2 ⟨odd, hsz⟩
    exact ⟨h31, trivial, hc, hp, hl, hr, hrm, ho, hs, hz, trivial, trivial⟩

/-- A word is the form of a size and a post-index operand exactly when its fields select them. -/
theorem exists_decode_ofOperands_iff (w : InstrWord) (sz : ElemSize) (post : PostIndex) :
    (∃ t n k, decode w = .instr (Instr.ofOperands sz post t n k)) ↔
      LoadsFour w ∧ sizeOfFields (fieldOpcode w) (fieldS w) (fieldSize w) = .ok sz ∧
        fieldP w = (fieldsOfPost post).1 ∧ fieldRm w = (fieldsOfPost post).2 := by
  constructor
  · rintro ⟨t, n, k, h⟩
    obtain ⟨h31, hc, hl, hr, odd, hp, sz', hs, hi⟩ := decode_eq_instr w _ h
    have size_eq : sz = sz' := by simpa using congrArg Instr.elemSize hi
    have post_eq : post = postOfFields (fieldP w) (fieldRm w) := by simpa using congrArg Instr.post hi
    subst size_eq post_eq
    rw [fieldsOfPost_postOfFields _ _ hp]
    exact ⟨⟨h31, hc, hl, hr, odd⟩, hs, rfl, rfl⟩
  · rintro ⟨hw, hs, hp, hrm⟩
    have offset : fieldP w = 0#1 → fieldRm w = 0#5 := by
      rw [hp, hrm]
      cases post <;> simp [fieldsOfPost]
    have post_eq : postOfFields (fieldP w) (fieldRm w) = post := by
      rw [hp, hrm, postOfFields_fieldsOfPost]
    exact ⟨_, _, _, post_eq ▸ hw.decode_sizeOk offset hs⟩

/-- A row whose `Rm` is fixed: no offset, or the immediate. -/
theorem tableRow_fixed (w : InstrWord) (sz : ElemSize) (post : PostIndex) :
    (∃ t n k, decode w = .instr (Instr.ofOperands sz post t n k)) ↔
      w &&& tableMask sz (.allOnes 5) = tableMatch sz (fieldsOfPost post).1 (fieldsOfPost post).2 := by
  rw [exists_decode_ofOperands_iff, and_tableMask_eq_iff, BitVec.and_allOnes]

/-- A register row: any `Rm` but 31. -/
theorem tableRow_reg (w : InstrWord) (sz : ElemSize) :
    (∃ t n k m, decode w = .instr (Instr.ofOperands sz (.reg m) t n k)) ↔
      w &&& tableMask sz 0#5 = tableMatch sz 1#1 0#5 ∧ fieldRm w ≠ 31#5 := by
  have register : ∀ rm : BitVec 5, (∃ m, rm = (fieldsOfPost (.reg m)).2) ↔ rm ≠ 31#5 := by decide
  rw [and_tableMask_eq_iff, ← register]
  constructor
  · rintro ⟨t, n, k, m, h⟩
    obtain ⟨hw, hs, hp, hrm⟩ := (exists_decode_ofOperands_iff w sz (.reg m)).1 ⟨t, n, k, h⟩
    exact ⟨⟨hw, hs, hp, BitVec.and_zero⟩, m, hrm⟩
  · rintro ⟨⟨hw, hs, hp, -⟩, m, hrm⟩
    obtain ⟨t, n, k, h⟩ := (exists_decode_ofOperands_iff w sz (.reg m)).2 ⟨hw, hs, hp, hrm⟩
    exact ⟨t, n, k, m, h⟩

end Sys2Proof

namespace Sys2Proof.Machine

open Sys2Proof.Safety

/-- A step at a word that passes the fetch checks does what the word is. -/
theorem fetchDecode_wordAt (s : State) {w : InstrWord} (ready : FetchReady s) (hw : WordAt s w) :
    fetchDecode s = decodedStep w := by
  rw [fetchDecode_ready s ready, fetchedWord_eq s hw]

theorem step_reserved (s : State) {w : InstrWord} {why : ReservedWord} (ready : FetchReady s)
    (hw : WordAt s w) (h : decode w = .reserved why) :
    step s = .next (takeSync .undefinedInstruction s) := by
  simp only [step, fetchDecode_wordAt s ready hw, decodedStep, h]

theorem step_notInScope (s : State) {w : InstrWord} {why : OtherWord} (ready : FetchReady s)
    (hw : WordAt s w) (h : decode w = .notInScope why) :
    step s = .refused (.notInScope why w) := by
  simp only [step, fetchDecode_wordAt s ready hw, decodedStep, h]

end Sys2Proof.Machine

namespace Sys2Proof.Proofs

open Sys2Proof.Machine Sys2Proof.Safety

/-- Settles O3: each row is the general row at its size and post-index operand. -/
theorem opcodeTableSelectsTheForms : Obligations.OpcodeTableSelectsTheForms := fun w =>
  ⟨tableRow_fixed w .b .none, tableRow_fixed w .h .none, tableRow_fixed w .s .none,
    tableRow_fixed w .d .none, tableRow_fixed w .b .imm, tableRow_reg w .b, tableRow_fixed w .h .imm,
    tableRow_reg w .h, tableRow_fixed w .s .imm, tableRow_reg w .s, tableRow_fixed w .d .imm,
    tableRow_reg w .d⟩

/-- Settles O4: the words that are no form by the lines of R70, the others by their element size. -/
theorem decodeFollowsTheAlgorithm : Obligations.DecodeFollowsTheAlgorithm := by
  refine ⟨fun w => ⟨fun h => ⟨_, decode_outsideClass h⟩, fun ⟨h31, hc⟩ h => ?otherCount,
    fun ⟨h31, hc⟩ h hp hrm => ?offset, fun ⟨h31, hc⟩ h hoffset => ?sizes⟩,
    fun st w ready hw =>
      ⟨fun why => step_reserved st ready hw, fun why => step_notInScope st ready hw⟩⟩
  case otherCount => exact decode_notLoadFour h31 hc (mt (loadFour_fields_iff w).1 h)
  case offset => exact ⟨_, (LoadsFour.of_bits h31 hc h).decode_reservedOffset hp hrm⟩
  case sizes =>
    have four := LoadsFour.of_bits h31 hc h
    have offset : fieldP w = 0#1 → fieldRm w = 0#5 := fun hp =>
      hoffset.resolve_left fun hp' => (bit_ne_zero_iff _).2 hp' hp
    have other {d : Decoded} := four.decode_sizeError offset (other := d)
    have form {sz : ElemSize} := four.decodesTo offset (sz := sz)
    rw [← fieldOpcode_high, ← fieldSize_bit0, ← fieldSize_bit1, ← fieldSize_high]
    refine ⟨fun ho => ?b, fun ho hz => ⟨_, other (sizeOfFields_halfwordOddSize ho hz)⟩,
      fun ho hz => ?h, fun ho hz => ⟨_, other (sizeOfFields_wordHighSize ho hz)⟩,
      fun ho hz => ?s, fun ho hz hs => ⟨_, other (sizeOfFields_doublewordWithS ho hz hs)⟩,
      fun ho hz hs => form (sizeOfFields_eq_d ho hz hs),
      fun ho hs => ⟨_, other (sizeOfFields_replicateWithS ho hs)⟩,
      fun ho hs => other (sizeOfFields_ld4r ho hs)⟩
    case b => exact laneOfFields_b .. ▸ form (sizeOfFields_eq_b ho)
    case h => exact laneOfFields_h .. ▸ form (sizeOfFields_eq_h ho hz)
    case s => exact laneOfFields_s .. ▸ form (sizeOfFields_eq_s ho hz)

end Sys2Proof.Proofs
end

section
/-!
PROOFS. The statements of `60_exceptions.md`.
-/

namespace Sys2Proof.Machine

open Sys2Proof.Safety

theorem vectorOffset_eq (x : TargetEl) (old : Pstate) (kind : VectorKind) :
    vectorOffset x old kind =
      (if elRank x.level > elRank old.el then 0x400#64
       else if old.spSel = false then 0x000#64 else 0x200#64) + vectorKindOffset kind := by
  simp only [vectorOffset, Bool.not_eq_true']

/-- A level whose registers are all as before keeps those that an entry could write. -/
theorem bankKept_of_bank_eq {s s' : State} {y : TargetEl} (h : s'.bank y = s.bank y) :
    BankKept s s' y := by
  simp only [BankKept, h, and_self]

/-! ### The entry of R102, for every kind of exception -/

section Entry

variable (x : TargetEl) (kind : VectorKind) (esr : BitVec 32) (addr : Option Word) (ret : Word)
  (s : State)

@[simp] theorem takeException_pc :
    (takeException x kind esr addr ret s).pc =
      (s.bank x).vbar + vectorOffset x s.pstate kind := rfl

theorem takeException_bank_target :
    (takeException x kind esr addr ret s).bank x =
      { s.bank x with
        spsr := spsrOfPstate s.pstate
        elr := ret
        esr := esr
        far := addr.getD (s.bank x).far } := by
  simp only [takeException, State.bank_setPc, State.bank_setPstate, State.bank_setBank, if_pos]

theorem takeException_bank_of_ne {y : TargetEl} (h : y ≠ x) :
    (takeException x kind esr addr ret s).bank y = s.bank y := by
  simp only [takeException, State.bank_setPc, State.bank_setPstate, State.bank_setBank, if_neg h]

/-- The entry writes the whole bank of its level, which holds a stack pointer too, but that with its old
value. -/
@[simp] theorem takeException_spAt (l : EL) :
    (takeException x kind esr addr ret s).spAt l = s.spAt l := by
  simp only [takeException, State.spAt_setPc, State.spAt_setPstate, State.spAt_setBank]
  split
  · next h => rw [h, ← State.bank_sp]
  · rfl

theorem takeException_configurationKept :
    ConfigurationKept s (takeException x kind esr addr ret s) := by
  simp [ConfigurationKept, takeException]

theorem takeException_entryKeeps : EntryKeeps s (takeException x kind esr addr ret s) :=
  ⟨fun j => by simp [takeException], takeException_spAt x kind esr addr ret s,
    fun r => by simp [takeException], takeException_configurationKept x kind esr addr ret s⟩

end Entry

end Sys2Proof.Machine

namespace Sys2Proof.Proofs

open Sys2Proof.Machine Sys2Proof.Safety

/-- Settles O22: the target level's bank, PSTATE and pc by the equations of the entry, the rest by its
frame. -/
theorem exceptionEntryFollowsTheRule : Obligations.ExceptionEntryFollowsTheRule := by
  refine ⟨fun e s => ⟨_, _, rfl⟩, fun x kind esr addr ret s => ?_⟩
  intro s' b group offset
  have bank : b = _ := takeException_bank_target x kind esr addr ret s
  have pc : s'.pc = (s.bank x).vbar + offset := by
    rw [takeException_pc, vectorOffset_eq]
    cases kind <;> rfl
  have others : ∀ y, y ≠ x → BankKept s s' y := fun y hy =>
    bankKept_of_bank_eq (takeException_bank_of_ne x kind esr addr ret s hy)
  refine ⟨?saved, ?link, ?syndrome, ?far, pc,
    rfl, rfl, rfl, rfl, rfl, rfl, rfl, rfl, rfl, rfl, rfl, rfl, rfl,
    takeException_entryKeeps x kind esr addr ret s, ?vbar, ?sctlr, others⟩
  case saved => exact bank ▸ spsrShows_spsrOfPstate s.pstate
  case far =>
    rw [bank]
    cases addr <;> rfl
  all_goals rw [bank]

end Sys2Proof.Proofs
end

section
/-!
PROOFS. The encoder and the decoder as inverses (`30_encoding.md` R65 to R70), and the words the spec
writes out.
-/

namespace Sys2Proof

theorem opcodeOfSize_odd (sz : ElemSize) : (opcodeOfSize sz).getLsbD 0 = true := by
  cases sz <;> rfl

/-- `P = 0` comes with `Rm = 00000` in every encoded word, so none is the reserved word of R71. -/
theorem fieldsOfPost_offset (post : PostIndex) :
    (fieldsOfPost post).1 = 0#1 → (fieldsOfPost post).2 = 0#5 := by
  cases post <;> simp [fieldsOfPost]

theorem encode_eq_wordOfFields (i : Instr) :
    encode i =
      wordOfFields (fieldsOfLane i.elemSize i.lane).1 (fieldsOfPost i.post).1 (fieldsOfPost i.post).2
        (opcodeOfSize i.elemSize) (fieldsOfLane i.elemSize i.lane).2.1
        (fieldsOfLane i.elemSize i.lane).2.2 (fieldOfBase i.base) (BitVec.ofFin i.first) := rfl

/-- An encoded word is a load of four in the class. -/
theorem loadsFour_encode (i : Instr) : LoadsFour (encode i) := by
  obtain ⟨-, -, hclass, hload, hpair, hopcode⟩ := formOperands_all i
  exact ⟨getElem_31_wordOfFields .., hclass, hload, hpair, hopcode ▸ opcodeOfSize_odd _⟩

/-- The decoder goes by the fields, and every field gives its operand back. -/
theorem decode_encode {i : Instr} (h : i.wellFormed = true) : decode (encode i) = .instr i := by
  have answer := (loadsFour_encode i).decode_sizeOk (sz := i.elemSize)
    (by simpa [encode_eq_wordOfFields] using fieldsOfPost_offset i.post)
    (by simp [encode_eq_wordOfFields])
  have lane := laneOfFields_fieldsOfLane i.elemSize i.lane (i.wellFormed_iff.1 h)
  have first : vregOfField (BitVec.ofFin i.first) = i.first := rfl
  simpa [encode_eq_wordOfFields, lane, first] using answer

/-- The operands of a decoded word are those of its fields, which the encoder writes back. -/
theorem encode_of_decode {w : InstrWord} {i : Instr} (h : decode w = .instr i) :
    i.wellFormed = true ∧ encode i = w := by
  obtain ⟨h31, hclass, hload, hpair, hodd, hoffset, sz, hsize, rfl⟩ := decode_eq_instr w i h
  obtain ⟨hopcode, hlane, hfields⟩ := sizeOfFields_eq_ok (fieldQ w) hodd hsize
  refine ⟨by simpa [Instr.wellFormed_iff] using hlane, ?_⟩
  have first : BitVec.ofFin (vregOfField (fieldRt w)) = fieldRt w := rfl
  rw [encode_eq_wordOfFields]
  simp only [Instr.elemSize_ofOperands, Instr.post_ofOperands, Instr.first_ofOperands,
    Instr.base_ofOperands, Instr.lane_ofOperands, fieldsOfPost_postOfFields _ _ hoffset, hfields,
    fieldOfBase_baseOfField, first, ← hopcode]
  exact wordOfFields_fields w h31 hclass hload hpair

end Sys2Proof

namespace Sys2Proof.Proofs

/-- Settles O1, by the fields of the encoded word. -/
theorem decodeInvertsEncode : Obligations.DecodeInvertsEncode := fun _ => decode_encode

/-- Settles O2: a decoded word is the word of its own fields. -/
theorem encodeInvertsDecode : Obligations.EncodeInvertsDecode := fun _ _ => encode_of_decode

/-- Settles O5, by running the decoder on the eleven words. -/
theorem writtenOutWordsDecode : Obligations.WrittenOutWordsDecode := by
  unfold Obligations.WrittenOutWordsDecode
  decide

end Sys2Proof.Proofs
end

section
/-!
PROOFS. What the level, the Security state and PSTATE select and show (`10_state.md` R17, R19, R25, R27,
R34), and the state after reset (`70_reset_and_hazards.md` R113).
-/

namespace Sys2Proof.Machine

open Sys2Proof.Safety

variable (s : State)

/-! ### The stack pointer (R17) -/

theorem State.readSp_of_spSel_false (h : s.pstate.spSel = false) : s.readSp = s.spEl0 := by
  simp [State.readSp, State.spLevel, h, State.spAt]

theorem State.readSp_of_spSel_true (h : s.pstate.spSel = true) : s.readSp = s.spAt s.pstate.el := by
  simp [State.readSp, State.spLevel, h]

theorem State.spAt_writeSp (w : Word) (l : EL) :
    (s.writeSp w).spAt l = if l = selectedStack s then w else s.spAt l :=
  State.spAt_setSpAt ..

/-! ### The controls of a level (R34) -/

theorem State.sctlr_el0 (h : s.pstate.el = .el0) : s.sctlr = s.bank1.sctlr := by
  simp only [State.sctlr, h]

theorem State.sctlr_level (x : TargetEl) (h : s.pstate.el = x.level) :
    s.sctlr = (s.bank x).sctlr := by
  cases x <;> simp only [State.sctlr, h, TargetEl.level, State.bank]

theorem State.bigEndianData_el0 (h : s.pstate.el = .el0) :
    s.bigEndianData = s.sctlr.getLsbD 24 := by
  simp only [State.bigEndianData, h]

theorem State.bigEndianData_level (x : TargetEl) (h : s.pstate.el = x.level) :
    s.bigEndianData = s.sctlr.getLsbD 25 := by
  cases x <;> simp only [State.bigEndianData, h, TargetEl.level]

/-! ### The views of PSTATE (R19, R25) -/

/-- A four-bit field placed at bit `i` of a 64-bit register, bit by bit. -/
theorem getLsbD_setWidth_shiftLeft (b : BitVec 4) (i j : Nat) (hi : i + 4 ≤ 64) :
    (b.setWidth 64 <<< i).getLsbD j =
      if j = i + 3 then b.getLsbD 3 else if j = i + 2 then b.getLsbD 2 else
        if j = i + 1 then b.getLsbD 1 else if j = i then b.getLsbD 0 else false := by
  simp only [BitVec.getLsbD_shiftLeft, BitVec.getLsbD_setWidth]
  by_cases inside : i ≤ j ∧ j < i + 4
  · obtain ⟨k, rfl⟩ := Nat.exists_eq_add_of_le inside.1
    have : k < 4 := by omega
    have : i < 64 ∧ i + k < 64 := by omega
    interval_cases k <;> simp [*]
  · have outside : j < i ∨ b.getLsbD (j - i) = false := by
      by_cases low : j < i
      · exact .inl low
      · exact .inr (BitVec.getLsbD_of_ge b (j - i) (by omega))
    rw [if_neg (by omega), if_neg (by omega), if_neg (by omega), if_neg (by omega)]
    rcases outside with low | clear
    · simp [low]
    · simp [clear]

theorem getLsbD_nzcvBits (p : Pstate) :
    (nzcvBits p).getLsbD 3 = p.n ∧ (nzcvBits p).getLsbD 2 = p.z ∧
      (nzcvBits p).getLsbD 1 = p.c ∧ (nzcvBits p).getLsbD 0 = p.v := by
  simp only [nzcvBits, bit, BitVec.getLsbD_append, BitVec.getLsbD_ofBool]
  exact ⟨rfl, rfl, rfl, rfl⟩

theorem getLsbD_daifBits (p : Pstate) :
    (daifBits p).getLsbD 3 = p.d ∧ (daifBits p).getLsbD 2 = p.a ∧
      (daifBits p).getLsbD 1 = p.i ∧ (daifBits p).getLsbD 0 = p.f := by
  simp only [daifBits, bit, BitVec.getLsbD_append, BitVec.getLsbD_ofBool]
  exact ⟨rfl, rfl, rfl, rfl⟩

theorem elBits_toNat (l : EL) : (elBits l).toNat = elRank l := by cases l <;> rfl

/-! ### Reset (R113) -/

theorem haveEl_highestEl (p : Platform) : haveEl p (highestEl p) = true := by
  unfold highestEl
  split
  · assumption
  · split
    · assumption
    · rfl

theorem elRank_le_highestEl (p : Platform) (l : EL) (h : haveEl p l = true) :
    elRank l ≤ elRank (highestEl p) := by
  unfold highestEl
  cases l with
  | el0 => exact Nat.zero_le _
  | el1 => split_ifs <;> decide
  | el2 =>
    rw [if_pos (show p.hasEl2 = true from h)]
    split_ifs <;> decide
  | el3 => rw [if_pos (show p.hasEl3 = true from h)]

/-- A reset enters EL2 only where EL2 is implemented and EL3 is not. -/
theorem highestEl_eq_el2 {p : Platform} (h : highestEl p = .el2) :
    p.hasEl3 = false ∧ p.hasEl2 = true := by
  revert h
  unfold highestEl
  cases p.hasEl3 <;> cases p.hasEl2 <;> decide

end Sys2Proof.Machine

namespace Sys2Proof.Proofs

open Sys2Proof.Machine Sys2Proof.Safety

/-- Settles O39. -/
theorem stackPointerSelection : Obligations.StackPointerSelection := by
  intro s w
  refine ⟨s.readSp_of_spSel_false, fun hsel hel => ?el0, fun x hsel hel => ?level,
    s.readSp_writeSp w, fun l hl => ?others⟩
  case el0 => rw [s.readSp_of_spSel_true hsel, hel]; rfl
  case level => rw [s.readSp_of_spSel_true hsel, hel, State.bank_sp]
  case others => rw [State.spAt_writeSp, if_neg hl]

/-- Settles O40. -/
theorem levelSelectsTheControls : Obligations.LevelSelectsTheControls := by
  intro s
  refine ⟨fun hel => ?el0, fun x hel => ?level, fun h3 hel => ?secureEl3, fun h3 hel => ?belowEl3,
    fun h3 => ?withoutEl3⟩
  case el0 =>
    rw [s.bigEndianData_el0 hel, State.alignCheck, s.sctlr_el0 hel]
    exact ⟨rfl, rfl⟩
  case level =>
    rw [s.bigEndianData_level x hel, State.alignCheck, s.sctlr_level x hel]
    exact ⟨rfl, rfl⟩
  all_goals simp [State.secure_eq, *]

/-- Settles O41, bit by bit. -/
theorem pstateViews : Obligations.PstateViews := by
  intro p j
  refine ⟨?nzcv, ?daif, ?spSel, ?currentEl⟩
  case nzcv =>
    obtain ⟨hn, hz, hc, hv⟩ := getLsbD_nzcvBits p
    rw [nzcvRegister, getLsbD_setWidth_shiftLeft _ _ _ (by decide), hn, hz, hc, hv]
  case daif =>
    obtain ⟨hd, ha, hi, hf⟩ := getLsbD_daifBits p
    rw [daifRegister, getLsbD_setWidth_shiftLeft _ _ _ (by decide), hd, ha, hi, hf]
  case spSel =>
    rw [spSelRegister, BitVec.getLsbD_setWidth, bit, BitVec.getLsbD_ofBool]
    by_cases hj : j = 0 <;> simp [hj]
  case currentEl =>
    rw [currentElRegister, ← elBits_toNat]
    cases p.el <;> rfl

/-- Settles O38. -/
theorem resetStateFollowsTheRule : Obligations.ResetStateFollowsTheRule := by
  refine fun p => ⟨⟨haveEl_highestEl p, elRank_le_highestEl p⟩, rfl, rfl, rfl, rfl, rfl, rfl, rfl, rfl,
    rfl, fun h3 => ?secure, fun hel => ?nonSecure⟩
  case secure =>
    have hel : highestEl p = .el3 := if_pos h3
    simp [State.secure_eq, State.resetOn, resetPstate, h3, hel]
  case nonSecure =>
    obtain ⟨h3, h2⟩ := highestEl_eq_el2 hel
    simp [State.secure_eq, State.resetOn, h3, h2]

/-- Settles O29, by evaluating the reset state. -/
theorem resetHasTheInvariant : Obligations.ResetHasTheInvariant := by
  unfold Obligations.ResetHasTheInvariant
  decide

end Sys2Proof.Proofs
end

section
/-!
PROOFS. Memory as data: the canonical form (`20_memory.md` R42) and a word placed from outside.
-/

namespace Sys2Proof.Machine

open Sys2Proof.Safety

/-! ### Canonical memories are extensional -/

/-- A cell of a canonical memory: its address is one of the address space, its byte is not the unlisted
one. -/
def listedCell (c : Host.Cell) : Bool := decide (c.1 < 2 ^ 64) && c.2 != unlistedByte

theorem listedCell_iff (c : Host.Cell) :
    listedCell c = true ↔ c.1 < 2 ^ 64 ∧ c.2 ≠ unlistedByte := by
  simp [listedCell]

theorem Memory.wf_iff (m : Memory) :
    Memory.wf m = true ↔ cellsRise none m = true ∧ m.all listedCell = true := by
  unfold Memory.wf
  rw [Bool.and_eq_true]
  rfl

theorem cellAt_cons_self (d : Byte) (c : Host.Cell) (m : List Host.Cell) :
    cellAt d c.1 (c :: m) = c.2 := if_pos rfl

theorem cellAt_cons_of_ne (d : Byte) {c : Host.Cell} {a : Nat} (m : List Host.Cell) (h : c.1 ≠ a) :
    cellAt d a (c :: m) = cellAt d a m := if_neg h

/-- The first address a canonical memory lists is not below the first one of another that reads the
same. -/
theorem head_not_lt {l : Option Nat} {c c' : Host.Cell} {m m' : List Host.Cell}
    (hrise : cellsRise l (c' :: m') = true) (hc : listedCell c = true)
    (same : ∀ a, a < 2 ^ 64 → cellAt unlistedByte a (c :: m) = cellAt unlistedByte a (c' :: m')) :
    ¬c.1 < c'.1 := by
  intro hlt
  obtain ⟨hbound, hbyte⟩ := (listedCell_iff c).1 hc
  have below : cellsRise (some c.1) (c' :: m') = true := by
    rw [cellsRise_cons] at hrise ⊢
    exact ⟨fun k hk => Option.some.inj hk ▸ hlt, hrise.2⟩
  have byte := same c.1 hbound
  rw [cellAt_cons_self, cellAt_below below (Nat.le_refl _)] at byte
  exact hbyte byte

/-- Induction on both lists: the first cells agree, and so do the reads of the rests. -/
theorem cells_eq_of_reads {l : Option Nat} {m m' : List Host.Cell}
    (hm : cellsRise l m = true) (hm' : cellsRise l m' = true)
    (hl : m.all listedCell = true) (hl' : m'.all listedCell = true)
    (same : ∀ a, a < 2 ^ 64 → cellAt unlistedByte a m = cellAt unlistedByte a m') : m = m' := by
  induction m generalizing l m' with
  | nil =>
    cases m' with
    | nil => rfl
    | cons c' m' =>
      rw [List.all_cons, Bool.and_eq_true, listedCell_iff] at hl'
      have byte := same c'.1 hl'.1.1
      rw [cellAt_cons_self] at byte
      exact absurd byte.symm hl'.1.2
  | cons c m ih =>
    rw [List.all_cons, Bool.and_eq_true] at hl
    cases m' with
    | nil =>
      obtain ⟨hbound, hbyte⟩ := (listedCell_iff c).1 hl.1
      have byte := same c.1 hbound
      rw [cellAt_cons_self] at byte
      exact absurd byte hbyte
    | cons c' m' =>
      rw [List.all_cons, Bool.and_eq_true] at hl'
      have addr : c.1 = c'.1 := Nat.le_antisymm
        (Nat.le_of_not_lt (head_not_lt hm hl'.1 fun a ha => (same a ha).symm))
        (Nat.le_of_not_lt (head_not_lt hm' hl.1 same))
      have byte := same c.1 ((listedCell_iff c).1 hl.1).1
      rw [cellAt_cons_self, addr, cellAt_cons_self] at byte
      have cell : c = c' := Prod.ext addr byte
      subst cell
      have rise := ((cellsRise_cons _ _ _).1 hm).2
      have rise' := ((cellsRise_cons _ _ _).1 hm').2
      rw [ih rise rise' hl.2 hl'.2 fun a ha => ?rest]
      case rest =>
        by_cases h : c.1 = a
        · rw [cellAt_below rise (Nat.le_of_eq h.symm), cellAt_below rise' (Nat.le_of_eq h.symm)]
        · simpa only [cellAt_cons_of_ne _ _ h] using same a ha

/-! ### A word placed from outside (entry 5) -/

/-- Reading after consecutive bytes have been written, which are fewer than the addresses there are. -/
theorem Memory.read_writeBytes {m : Memory} (a b : Word) (us : List Byte) (h : Memory.wf m = true)
    (hlen : us.length < 2 ^ 64) :
    Memory.read (Memory.writeBytes m a us) b =
      if (b - a).toNat < us.length then us.getD (b - a).toNat 0#8 else Memory.read m b := by
  induction us generalizing m a with
  | nil => simp [Memory.writeBytes]
  | cons u us ih =>
    rw [List.length_cons] at hlen
    rw [Memory.writeBytes, ih _ (Memory.write_wf a u h) (by omega), Memory.read_write _ _ _ h,
      List.length_cons]
    by_cases hb : b = a
    · subst hb
      have last : ¬(b - (b + 1#64)).toNat < us.length := by
        have : (b - (b + 1#64)).toNat = 2 ^ 64 - 1 := by bv_omega
        omega
      rw [if_neg last, if_pos rfl]
      simp
    · have next : (b - a).toNat = (b - (a + 1#64)).toNat + 1 := by bv_omega
      rw [next, if_neg hb, List.getD_cons_succ]
      simp only [Nat.add_lt_add_iff_right]

theorem bytesOfWord_getD (w : InstrWord) {k : Nat} (hk : k < 4) :
    (bytesOfWord w).getD k 0#8 = w.extractLsb' (8 * k) 8 := by
  interval_cases k <;> rfl

variable (s : State)

/-- The memory after a word has been placed: the bytes of the word at the pc, the others as before. -/
theorem read_placeWord (w : InstrWord) (a : Word) (h : Memory.wf s.mem = true) :
    Memory.read (placeWord s w).mem a =
      if (a - s.pc).toNat < 4 then w.extractLsb' (8 * (a - s.pc).toNat) 8
      else Memory.read s.mem a := by
  rw [placeWord, State.setProgram_mem, Memory.read_writeBytes _ _ (bytesOfWord w) h (by decide : 4 < 2 ^ 64)]
  refine ite_congr rfl (fun hk => bytesOfWord_getD w hk) fun _ => rfl

theorem lookup_placeWord (w : InstrWord) (a : Word) (ha : (a - s.pc).toNat < 4) :
    ProgramText.lookup (placeWord s w).text a = none := by
  rw [placeWord, State.setProgram_text, ProgramText.lookup_erase _ _ _ _ (by decide), if_pos ha]

theorem add_ofNat_sub_toNat (a : Word) {k : Nat} (hk : k < 4) :
    (a + BitVec.ofNat 64 k - a).toNat = k := by
  rw [add_sub_cancel_left, BitVec.toNat_ofNat, Nat.mod_eq_of_lt (by omega)]

/-- The next fetch reads the word that has been placed. -/
theorem wordAt_placeWord (w : InstrWord) (h : Memory.wf s.mem = true) : WordAt (placeWord s w) w := by
  intro k hk
  have offset : (s.pc + BitVec.ofNat 64 k - s.pc).toNat = k := add_ofNat_sub_toNat s.pc hk
  have pc : (placeWord s w).pc = s.pc := rfl
  simp only [fetchByte, pc, lookup_placeWord s w _ (offset.symm ▸ hk), read_placeWord s w _ h, offset,
    if_pos hk]

theorem tableWord_32 (w : Nat) (h : w < 2 ^ 32) : tableWord 32 w = BitVec.ofNat 32 w := by
  rw [tableWord, Nat.mod_eq_of_lt h]

end Sys2Proof.Machine

namespace Sys2Proof.Proofs

open Sys2Proof.Machine Sys2Proof.Safety

/-- Settles O45, by induction on the two lists of cells. -/
theorem equalReadsMeanEqualMemories : Obligations.EqualReadsMeanEqualMemories := by
  intro m m' hm hm' same
  obtain ⟨rise, listed⟩ := (Memory.wf_iff m).1 hm
  obtain ⟨rise', listed'⟩ := (Memory.wf_iff m').1 hm'
  refine cells_eq_of_reads rise rise' listed listed' fun a ha => ?_
  have read := same (BitVec.ofNat 64 a)
  rwa [Memory.read, Memory.read, BitVec.toNat_ofNat, Nat.mod_eq_of_lt ha] at read

/-- Settles O11: the placed bytes are read, the program text no longer hides them. -/
theorem placedWordIsFetched : Obligations.PlacedWordIsFetched := by
  intro s w hm hw
  rw [State.withFetchWord, tableWord_32 w hw]
  refine ⟨wordAt_placeWord s _ hm, fun a outside => ?others, Memory.writeBytes_wf _ _ hm⟩
  case others =>
    rw [read_placeWord s _ _ hm, if_neg]
    intro inside
    refine outside _ inside ?_
    rw [BitVec.ofNat_toNat, BitVec.setWidth_eq]
    bv_omega

end Sys2Proof.Proofs
end

section
/-!
PROOFS. The twelve forms that complete (`40_ld4_single_structure.md` R78, R83 to R95).
-/

namespace Sys2Proof.Machine

open Sys2Proof.Safety

variable (s : State)

/-- A completed form changes nothing beside vector registers, base and pc (R37, R80). -/
theorem ld4Commit_restKept (t : Fin 32) (n : XSp) (index : Nat) (sz : ElemSize) (post : PostIndex)
    (base : Word) (es : List (BitVec 64)) :
    RestKept s (ld4Commit t n index sz post base es s) :=
  ⟨ld4Commit_pstate .., ld4Commit_bankKept s t n index sz post base es, by
    simp [ConfigurationKept]⟩

/-- Every form without offset, at once (R84 to R87). -/
theorem exec_loadedNoOffset (i : Instr) (ready : LoadReady s i.base i.elemSize) (hp : i.post = .none)
    (hl : i.lane < i.elemSize.lanes) :
    ∃ s', exec i s = .next s' ∧ LoadedNoOffset s s' i.first i.base i.lane i.elemSize :=
  ⟨_, exec_ready s i ready, ld4Commit_loaded s _ _ _ _ _ _ hl,
    ld4Commit_baseKept s _ _ _ _ _ _ _ (by rw [hp]; rfl), ld4Commit_pc .., ld4Commit_restKept ..⟩

/-- Every form with an offset, at once (R88 to R95). -/
theorem exec_loadedPostIndex (i : Instr) {offs : Word} (ready : LoadReady s i.base i.elemSize)
    (hp : offsetValue s i.elemSize i.post = some offs) (hl : i.lane < i.elemSize.lanes) :
    ∃ s', exec i s = .next s' ∧ LoadedPostIndex s s' i.first i.base i.lane i.elemSize offs :=
  ⟨_, exec_ready s i ready, ld4Commit_loaded s _ _ _ _ _ _ hl,
    ld4Commit_baseWritten s _ _ _ _ _ _ _ hp, ld4Commit_pc .., ld4Commit_restKept ..⟩

/-- The base register of a post-indexed form that completes, whatever the lane (R75, R83). -/
theorem exec_readX_base (i : Instr) {n : Fin 31} {offs : Word} (ready : LoadReady s i.base i.elemSize)
    (hb : i.base = .x n) (hp : offsetValue s i.elemSize i.post = some offs) :
    ∃ s', exec i s = .next s' ∧ s'.readX n = s.readX n + offs := by
  refine ⟨_, exec_ready s i ready, ?_⟩
  rw [hb]
  obtain ⟨written, -⟩ := ld4Commit_baseWritten s i.first (.x n) i.lane i.elemSize i.post (s.readX n)
    (elements s (s.readX n) i.elemSize) hp
  exact (written n).trans (if_pos rfl)

end Sys2Proof.Machine

namespace Sys2Proof.Proofs

open Sys2Proof.Machine Sys2Proof.Safety

/-- Settles O12: the four rows of the form without offset. -/
theorem noOffsetFormsLoadTheStructure : Obligations.NoOffsetFormsLoadTheStructure := fun t n index s =>
  ⟨fun hl ready => exec_loadedNoOffset s (.ld4B t n index) ready rfl hl,
    fun hl ready => exec_loadedNoOffset s (.ld4H t n index) ready rfl hl,
    fun hl ready => exec_loadedNoOffset s (.ld4S t n index) ready rfl hl,
    fun hl ready => exec_loadedNoOffset s (.ld4D t n index) ready rfl hl⟩

/-- Settles O13: the four rows of the form whose offset is the size of the structure. -/
theorem immediateFormsAdvanceTheBase : Obligations.ImmediateFormsAdvanceTheBase := fun t n index s =>
  ⟨fun hl ready => exec_loadedPostIndex s (.ld4BImm t n index) ready rfl hl,
    fun hl ready => exec_loadedPostIndex s (.ld4HImm t n index) ready rfl hl,
    fun hl ready => exec_loadedPostIndex s (.ld4SImm t n index) ready rfl hl,
    fun hl ready => exec_loadedPostIndex s (.ld4DImm t n index) ready rfl hl⟩

/-- Settles O14: the four rows of the form whose offset is `X[m]`. -/
theorem registerFormsAddTheOffset : Obligations.RegisterFormsAddTheOffset := fun t n index m s =>
  ⟨fun hl ready => exec_loadedPostIndex s (.ld4BReg t n index m) ready rfl hl,
    fun hl ready => exec_loadedPostIndex s (.ld4HReg t n index m) ready rfl hl,
    fun hl ready => exec_loadedPostIndex s (.ld4SReg t n index m) ready rfl hl,
    fun hl ready => exec_loadedPostIndex s (.ld4DReg t n index m) ready rfl hl⟩

/-- Settles O15: the offset is the value before the instruction, the equal base included. -/
theorem registerCornerCases : Obligations.RegisterCornerCases := by
  refine ⟨by decide, fun i n s wf hb hp ready => ?doubled, fun i n m d s hb hp hd ready => ?back⟩
  case doubled =>
    obtain ⟨s', step, loaded, written, -⟩ := exec_loadedPostIndex s i ready (by rw [hp]; rfl)
      (i.wellFormed_iff.1 wf)
    rw [hb] at loaded written
    exact ⟨s', step, (written.1 n).trans (if_pos rfl), loaded⟩
  case back =>
    obtain ⟨s', step, written⟩ := exec_readX_base s i ready hb (by rw [hp]; rfl)
    exact ⟨s', step, by rw [written, hd, BitVec.sub_eq_add_neg]⟩

end Sys2Proof.Proofs
end

section
/-!
PROOFS. The forms that do not complete: the SIMD check (`60_exceptions.md` R98, R99) and the element reads
(`20_memory.md` R47 to R51).
-/

namespace Sys2Proof.Machine

open Sys2Proof.Safety

variable (s : State)

/-! ### The SIMD check, by the controls R99 names -/

/-- EL2's controls apply. -/
abbrev El2Here : Prop := s.platform.hasEl2 = true ∧ s.secure = false

/-- `CPACR_EL1.FPEN` disables Advanced SIMD at the current level. -/
abbrev FpenDisabled : Prop :=
  (s.pstate.el = .el0 ∧ s.fpen ≠ 0b11#2) ∨
    (s.pstate.el = .el1 ∧ (s.fpen = 0b00#2 ∨ s.fpen = 0b10#2))

/-- The one case in which EL1's control is re-routed to EL2. -/
abbrev TgeReroutes : Prop := s.pstate.el = .el0 ∧ El2Here s ∧ s.tge = true

/-- `CPTR_EL2.TFP` traps. -/
abbrev TrapsToEl2 : Prop := El2Here s ∧ s.pstate.el ≠ .el3 ∧ s.tfpEl2 = true

/-- `CPTR_EL3.TFP` traps. -/
abbrev TrapsToEl3 : Prop := s.platform.hasEl3 = true ∧ s.tfpEl3 = true

theorem el2Applies_iff : s.el2Applies = true ↔ El2Here s := by
  simp [State.el2Applies, haveEl, El2Here]

theorem fpenDisables_iff : fpenDisables s = true ↔ FpenDisabled s := by
  unfold fpenDisables
  split <;> next hel => simp [FpenDisabled, hel]

theorem elRank_le_two_iff (l : EL) : elRank l ≤ elRank .el2 ↔ l ≠ .el3 := by
  cases l <;> decide

/-- The trap decision in the terms of the controls. -/
theorem simdTrap_eq :
    simdTrap s =
      if FpenDisabled s then
        if TgeReroutes s then some .undefinedInstruction else some (.simdAccessTrap .el1)
      else if TrapsToEl2 s then some (.simdAccessTrap .el2)
      else if TrapsToEl3 s then some (.simdAccessTrap .el3)
      else none := by
  unfold simdTrap
  simp only [fpenDisables_iff, Bool.and_eq_true, decide_eq_true_eq, el2Applies_iff, elRank_le_two_iff,
    haveEl, TgeReroutes, TrapsToEl2, TrapsToEl3, and_assoc]

/-- With Advanced SIMD and without the Host Extensions the check ends as the trap decision says. -/
theorem checkSimdEnabled_of_trap (simd : s.platform.advSimd = true)
    (host : s.platform.hasEl2 = true → s.e2h = false) {e : SyncException} (h : simdTrap s = some e) :
    checkSimdEnabled s = .error (.raise e) := by
  have host' : ¬(haveEl s.platform .el2 && s.e2h) = true := by simpa [haveEl] using host
  rw [checkSimdEnabled, if_neg (by simp [simd]), if_neg host', h]

theorem checkSimdEnabled_of_no_trap (simd : s.platform.advSimd = true)
    (host : s.platform.hasEl2 = true → s.e2h = false) (h : simdTrap s = none) :
    checkSimdEnabled s = .ok () := by
  have host' : ¬(haveEl s.platform .el2 && s.e2h) = true := by simpa [haveEl] using host
  rw [checkSimdEnabled, if_neg (by simp [simd]), if_neg host', h]

/-- A form ends in what the SIMD check ends in, before it looks at its operands. -/
theorem ld4Load_of_check_error (n : XSp) (sz : ElemSize) {e : Stop}
    (h : checkSimdEnabled s = .error e) : ld4Load n sz s = .error e := by
  simp only [ld4Load, h]

/-- An exception that is no Data Abort is taken from the unchanged state. -/
theorem exec_raise (i : Instr) {e : SyncException}
    (h : ld4Load i.base i.elemSize s = .error (.raise e))
    (noAbort : ∀ a, e ≠ .dataAbortAlignment a ∧ e ≠ .dataAbortOther a) :
    exec i s = .next (takeSync e s) := by
  rw [exec_fault s i h, ld4AtFault_eq s e _ _ _ noAbort]

/-- Every form takes the trap that R99 decides, with nothing changed. -/
theorem exec_simdTrap (i : Instr) (simd : s.platform.advSimd = true)
    (host : s.platform.hasEl2 = true → s.e2h = false) {e : SyncException} (h : simdTrap s = some e) :
    exec i s = .next (takeSync e s) := by
  refine exec_raise s i (ld4Load_of_check_error s _ _ (checkSimdEnabled_of_trap s simd host h)) ?_
  rw [simdTrap_eq] at h
  split_ifs at h <;> cases h <;> exact fun a => ⟨nofun, nofun⟩

/-! ### The element reads -/

/-- Past the SIMD check and the base, a form ends in what its reads end in. -/
theorem ld4Load_of_reads_error {n : XSp} {sz : ElemSize} (enabled : SimdEnabled s)
    (aligned : SpAligned s n) {e : Stop} (h : readStructure s (baseValue s n) sz = .error e) :
    ld4Load n sz s = .error e := by
  have base : readBase s n = .ok (baseValue s n) := by
    rw [readBase_eq, if_neg fun ⟨hn, unaligned⟩ => unaligned (aligned hn)]
  simp only [ld4Load, (checkSimdEnabled_eq_ok_iff s).2 enabled, base, h]

/-- An element whose bytes all precede byte `q * ebytes` lies in the elements below `q`. -/
theorem elementByte_lt {sz : ElemSize} {k q b : Nat} (hk : k < q) (hb : b < elemBytes sz) :
    k * elemBytes sz + b < q * elemBytes sz := by
  have := Nat.mul_le_mul_right (elemBytes sz) (Nat.succ_le_of_lt hk)
  rw [Nat.succ_mul] at this
  omega

/-- The reads end in the error of element `q` when all bytes below it are readable ordinary memory. -/
theorem readStructure_error_of_element {base : Word} {sz : ElemSize} {q : Nat} (hq : q < 4)
    (aligned : DataAligned s base sz)
    (earlier : ∀ j, j < q * elemBytes sz → ByteReadable s base j ∧ ¬ByteDevice s base j) {e : Stop}
    (h : memRead s (elementAddress base sz q) sz = .error e) :
    readStructure s base sz = .error e := by
  refine (readStructure_eq_error_iff s base sz e).2 ⟨q, hq, h, fun k hk =>
    ⟨elementValue s (elementAddress base sz k) sz, ?_⟩⟩
  refine (memRead_eq_ok_iff s _ sz _).2 ⟨?_, fun b hb => ?_, rfl⟩
  · rwa [misaligned_elementAddress, misaligned_eq_false_iff]
  · simp only [ByteReadable, ByteDevice, elementAddress_add]
    exact earlier _ (elementByte_lt hk hb)

/-- A misaligned base ends the reads at the first element. -/
theorem readStructure_misaligned {base : Word} {sz : ElemSize} (check : s.alignCheck = true)
    (unaligned : base.toNat % elemBytes sz ≠ 0) :
    readStructure s base sz = .error (.raise (.dataAbortAlignment base)) := by
  have first : elementAddress base sz 0 = base := by simp [elementAddress]
  refine (readStructure_eq_error_iff s base sz _).2 ⟨0, by decide, ?_, fun j hj => absurd hj (by omega)⟩
  rw [first]
  exact (memRead_eq_error_iff s base sz _).2 (.inl ⟨by simp [misaligned, check, unaligned], rfl⟩)

/-- The lowest unreadable byte ends the reads, where no device byte lies in an element before its own
(R50). -/
theorem readStructure_unreadable {base : Word} {sz : ElemSize} {k : Nat} (hk : k < 4 * elemBytes sz)
    (aligned : DataAligned s base sz) (unreadable : ¬ByteReadable s base k)
    (below : ∀ j, j < k → ByteReadable s base j)
    (noDevice : ∀ j, j < k / elemBytes sz * elemBytes sz → ¬ByteDevice s base j) :
    readStructure s base sz = .error (.raise (.dataAbortOther (base + BitVec.ofNat 64 k))) := by
  have hq : k / elemBytes sz < 4 := Nat.div_lt_of_lt_mul (by rwa [Nat.mul_comm])
  have parts : k / elemBytes sz * elemBytes sz + k % elemBytes sz = k := Nat.div_add_mod' ..
  refine readStructure_error_of_element s hq aligned
    (fun j hj => ⟨below j (by omega), noDevice j hj⟩) ?_
  refine (memRead_eq_error_iff s _ sz _).2 (.inr (.inl ⟨?_, k % elemBytes sz,
    Nat.mod_lt _ (elemBytes_pos sz), ?_, fun j hj => ?_, ?_⟩))
  · rwa [misaligned_elementAddress, misaligned_eq_false_iff]
  · simpa only [ByteReadable, elementAddress_add, parts] using unreadable
  · simp only [ByteReadable, elementAddress_add]
    exact below _ (by omega)
  · rw [elementAddress_add, parts]

/-- The lowest device byte ends the reads, where every byte up to the end of its element is readable
(R51). -/
theorem readStructure_device {base : Word} {sz : ElemSize} {k : Nat} (hk : k < 4 * elemBytes sz)
    (aligned : DataAligned s base sz) (device : ByteDevice s base k)
    (below : ∀ j, j < k → ¬ByteDevice s base j)
    (readable : ∀ j, j < k / elemBytes sz * elemBytes sz + elemBytes sz → ByteReadable s base j) :
    readStructure s base sz = .error (.refuse (.deviceMemory (base + BitVec.ofNat 64 k))) := by
  have hq : k / elemBytes sz < 4 := Nat.div_lt_of_lt_mul (by rwa [Nat.mul_comm])
  have parts : k / elemBytes sz * elemBytes sz + k % elemBytes sz = k := Nat.div_add_mod' ..
  refine readStructure_error_of_element s hq aligned
    (fun j hj => ⟨readable j (by omega), below j (by omega)⟩) ?_
  refine (memRead_eq_error_iff s _ sz _).2 (.inr (.inr ⟨?_, fun b hb => ?_, k % elemBytes sz,
    Nat.mod_lt _ (elemBytes_pos sz), ?_, fun j hj => ?_, ?_⟩))
  · rwa [misaligned_elementAddress, misaligned_eq_false_iff]
  · simp only [ByteReadable, elementAddress_add]
    exact readable _ (by omega)
  · simpa only [ByteDevice, elementAddress_add, parts] using device
  · simp only [ByteDevice, elementAddress_add]
    exact below _ (by omega)
  · rw [elementAddress_add, parts]

/-- A form whose reads raise takes the exception after no more than lanes have changed. -/
theorem exec_of_reads_raise (i : Instr) (enabled : SimdEnabled s) (aligned : SpAligned s i.base)
    {e : SyncException}
    (h : readStructure s (baseValue s i.base) i.elemSize = .error (.raise e)) :
    ∃ s₁, OnlyLanesDiffer s s₁ i.first i.lane i.elemSize ∧ exec i s = .next (takeSync e s₁) :=
  ⟨_, ld4AtFault_lanes s e _ _ _, exec_fault s i (ld4Load_of_reads_error s enabled aligned h)⟩

end Sys2Proof.Machine

namespace Sys2Proof.Proofs

open Sys2Proof.Machine Sys2Proof.Safety

/-- Settles O16: each clause is a branch of the trap decision. -/
theorem simdTrapDecision : Obligations.SimdTrapDecision := by
  intro i s simd host
  have takes {e : SyncException} := exec_simdTrap s i simd host (e := e)
  refine ⟨fun hd hr => ⟨?target, takes ?rerouted⟩, fun hd hr => takes ?el1,
    fun hd h2 => takes ?el2, fun hd h2 h3 => takes ?el3,
    fun hd h2 h3 => checkSimdEnabled_of_no_trap s simd host ?none⟩
  case target =>
    obtain ⟨hel, here, htge⟩ := hr
    simp [exceptionTarget, defaultTarget, hel, (el2Applies_iff s).2 here, htge]
  case rerouted => rw [simdTrap_eq, if_pos hd, if_pos hr]
  case el1 => rw [simdTrap_eq, if_pos hd, if_neg hr]
  case el2 => rw [simdTrap_eq, if_neg hd, if_pos h2]
  case el3 => rw [simdTrap_eq, if_neg hd, if_neg h2, if_pos h3]
  case none => rw [simdTrap_eq, if_neg hd, if_neg h2, if_neg h3]

/-- Settles O17: both conditions are looked at before the trap decision. -/
theorem missingSimdAndHostExtensions : Obligations.MissingSimdAndHostExtensions := by
  refine fun i s => ⟨fun simd => ?undefined, fun simd h2 host => ?refused⟩
  case undefined =>
    have check : checkSimdEnabled s = .error (.raise .undefinedInstruction) := by
      rw [checkSimdEnabled, if_pos (by simp [simd])]
    exact exec_raise s i (ld4Load_of_check_error s _ _ check) fun a => ⟨nofun, nofun⟩
  case refused =>
    have check : checkSimdEnabled s = .error (.refuse .hostExtensionsEnabled) := by
      rw [checkSimdEnabled, if_neg (by simp [simd]), if_pos (by simp [haveEl, h2, host])]
    exact exec_refused s i (ld4Load_of_check_error s _ _ check)

/-- Settles O19: the first element read fails, and every address is a multiple of 1. -/
theorem misalignedElementsAbort : Obligations.MisalignedElementsAbort :=
  ⟨fun i s enabled aligned check unaligned =>
    exec_of_reads_raise s i enabled aligned (readStructure_misaligned s check unaligned),
    fun _ _ _ => Nat.mod_one _⟩

/-- Settles O20. -/
theorem unreadableByteAborts : Obligations.UnreadableByteAborts :=
  fun i s _ enabled sp aligned hk unreadable below noDevice =>
    exec_of_reads_raise s i enabled sp
      (readStructure_unreadable s hk aligned unreadable below noDevice)

/-- Settles O21. -/
theorem deviceMemoryIsRefused : Obligations.DeviceMemoryIsRefused :=
  fun i s _ enabled sp aligned hk device below readable =>
    exec_refused s i (ld4Load_of_reads_error s enabled sp
      (readStructure_device s hk aligned device below readable))

end Sys2Proof.Proofs
end

section
/-!
PROOFS. What a form does not read and does not write (`10_state.md` R13, R24, R36, R38,
`40_ld4_single_structure.md` R80).
-/

namespace Sys2Proof.Machine

open Sys2Proof.Safety

/-! ### What a form reads -/

/-- Two states agree in everything the checks of R82 look at, for a form with base `n`. -/
structure ChecksAgree (n : XSp) (s s' : State) : Prop where
  platform : s'.platform = s.platform
  level : s'.pstate.el = s.pstate.el
  simd : checkSimdEnabled s' = checkSimdEnabled s
  base : baseValue s' n = baseValue s n
  align : s'.alignCheck = s.alignCheck

/-- Two states agree in the checks and in the bytes the reads return. -/
structure ReadsAgree (n : XSp) (s s' : State) : Prop extends ChecksAgree n s s' where
  order : s'.bigEndianData = s.bigEndianData
  bytes : s'.dataByte = s.dataByte

theorem ChecksAgree.loadReady {n : XSp} {s s' : State} (h : ChecksAgree n s s') {sz : ElemSize}
    (ready : LoadReady s n sz) : LoadReady s' n sz := by
  obtain ⟨enabled, sp, aligned, readable⟩ := ready
  refine ⟨?_, fun hn => ?_, ?_, ?_⟩
  · rwa [← checkSimdEnabled_eq_ok_iff, h.simd, checkSimdEnabled_eq_ok_iff]
  · subst hn
    have sameSp : s'.readSp = s.readSp := h.base
    rw [sameSp]
    exact sp rfl
  · rw [DataAligned, h.align, h.base]
    exact aligned
  · simp only [StructureReadable, ByteReadable, ByteDevice, h.platform, h.level, h.base]
    exact readable

theorem ReadsAgree.ld4Load_eq {n : XSp} {s s' : State} (h : ReadsAgree n s s') (sz : ElemSize) :
    ld4Load n sz s' = ld4Load n sz s := by
  have base : readBase s' n = readBase s n := by
    cases n with
    | x i => simpa only [readBase, baseValue, Except.ok.injEq] using h.base
    | sp =>
      have sameSp : s'.readSp = s.readSp := h.base
      simp only [readBase, sameSp]
  have check (a : Word) : misaligned s' a sz = misaligned s a sz := by
    rw [misaligned, misaligned, h.align]
  have value (a : Word) : elementValue s' a sz = elementValue s a sz := by
    rw [elementValue, elementValue, h.bytes, h.order]
  have element (a : Word) : memRead s' a sz = memRead s a sz := by
    rw [memRead, memRead, check, value, h.platform, h.level]
  simp only [ld4Load, h.simd, base, readStructure, readElements, element]

/-! ### What a form writes -/

/-- An update of the state that the writes of a form with base `n` leave in place. -/
structure FormCarries (f : State → State) (n : XSp) : Prop where
  setVregs : ∀ s v, (f s).setVregs v = f (s.setVregs v)
  writeBase : ∀ s w, writeBase (f s) n w = f (writeBase s n w)
  setPc : ∀ s a, (f s).setPc a = f (s.setPc a)
  tick : ∀ s, (f s).tick = f s.tick
  pc : ∀ s, (f s).pc = s.pc
  v : ∀ s, (f s).v = s.v
  freeCount : ∀ s, (f s).freeCount = s.freeCount

/-- An update of the state that the entry of an exception neither reads nor overwrites. -/
structure EntryCarries (f : State → State) : Prop where
  setBank : ∀ s y b, (f s).setBank y b = f (s.setBank y b)
  setPstate : ∀ s p, (f s).setPstate p = f (s.setPstate p)
  setPc : ∀ s a, (f s).setPc a = f (s.setPc a)
  tick : ∀ s, (f s).tick = f s.tick
  bank : ∀ s y, (f s).bank y = s.bank y
  pstate : ∀ s, (f s).pstate = s.pstate
  pc : ∀ s, (f s).pc = s.pc
  target : ∀ s e, exceptionTarget e (f s) = exceptionTarget e s
  syndrome : ∀ s e, syndrome e (f s) = syndrome e s
  faultAddress : ∀ s e, faultAddress e (f s) = faultAddress e s

theorem EntryCarries.takeSync_eq {f : State → State} (h : EntryCarries f) (e : SyncException)
    (s : State) : takeSync e (f s) = f (takeSync e s) := by
  simp only [takeSync, takeException, h.setBank, h.setPstate, h.setPc, h.tick, h.bank, h.pstate, h.pc,
    h.target, h.syndrome, h.faultAddress]

section FormCarries

variable {f : State → State} {n : XSp} (h : FormCarries f n) (t : Fin 32) (index : Nat) (sz : ElemSize)
  (s : State)

include h

theorem FormCarries.ld4Commit_eq {post : PostIndex} (base : Word) (es : List (BitVec 64))
    (offset : offsetValue (f s) sz post = offsetValue s sz post) :
    ld4Commit t n index sz post base es (f s) = f (ld4Commit t n index sz post base es s) := by
  simp only [ld4Commit, offset, h.v, h.pc, h.setVregs]
  cases offsetValue s sz post with
  | none => rw [h.setPc, h.tick]
  | some offs => simp only [h.writeBase, h.setPc, h.tick]

theorem FormCarries.ld4AtFault_eq (e : SyncException) :
    ld4AtFault e t index sz (f s) = f (ld4AtFault e t index sz s) := by
  cases e <;> simp only [ld4AtFault, unknownLanes, h.v, h.freeCount, h.setVregs]

end FormCarries

/-- An outcome with its next state changed. -/
def mapNext (f : State → State) : Host.Outcome State Fault Refusal → Host.Outcome State Fault Refusal
  | .next s => .next (f s)
  | .fault r => .fault r
  | .refused r => .refused r

/-- A form commutes with an update that it and an exception entry do not see. -/
theorem exec_commutes (i : Instr) (s : State) {f : State → State} (reads : ReadsAgree i.base s (f s))
    (offset : offsetValue (f s) i.elemSize i.post = offsetValue s i.elemSize i.post)
    (writes : FormCarries f i.base) (entry : EntryCarries f) :
    exec i (f s) = mapNext f (exec i s) := by
  simp only [exec_eq, formOutcome, ld4Single, reads.ld4Load_eq]
  cases ld4Load i.base i.elemSize s with
  | error stop =>
    cases stop with
    | raise e => simp only [SpecOutcome.taken, mapNext, writes.ld4AtFault_eq, entry.takeSync_eq]
    | refuse r => rfl
  | ok loaded =>
    simp only [SpecOutcome.taken, mapNext, writes.ld4Commit_eq _ _ _ _ _ _ offset]

/-! ### The updates of the statements -/

/-- Other values in FPCR, FPSR, the debug registers, the hidden state and ID_AA64ISAR0_EL1. -/
def withUnnamed (fp : FpRegs) (debug : DebugRegs) (hidden : Hidden) (ident : BitVec 64) (s : State) :
    State :=
  { s with fp := fp, dbg := debug, hidden := hidden, sys := { s.sys with idAa64Isar0El1 := ident } }

section Unnamed

variable (fp : FpRegs) (debug : DebugRegs) (hidden : Hidden) (ident : BitVec 64)

theorem formCarries_withUnnamed (n : XSp) : FormCarries (withUnnamed fp debug hidden ident) n where
  setVregs _ _ := rfl
  writeBase s w := by
    cases n with
    | x i => rfl
    | sp =>
      show (withUnnamed fp debug hidden ident s).setSpAt s.spLevel w = _
      rw [writeBase, State.writeSp]
      cases s.spLevel <;> rfl
  setPc _ _ := rfl
  tick _ := rfl
  pc _ := rfl
  v _ := rfl
  freeCount _ := rfl

theorem entryCarries_withUnnamed : EntryCarries (withUnnamed fp debug hidden ident) where
  setBank _ y _ := by cases y <;> rfl
  setPstate _ _ := rfl
  setPc _ _ := rfl
  tick _ := rfl
  bank _ y := by cases y <;> rfl
  pstate _ := rfl
  pc _ := rfl
  target _ _ := rfl
  syndrome _ _ := rfl
  faultAddress _ _ := rfl

theorem readsAgree_withUnnamed (n : XSp) (s : State) :
    ReadsAgree n s (withUnnamed fp debug hidden ident s) where
  platform := rfl
  level := rfl
  simd := rfl
  base := by cases n <;> rfl
  align := rfl
  order := rfl
  bytes := rfl

end Unnamed

/-- Other flags N, Z, C, V and masks D, A, I, F. -/
def withFlags (n z c v d a i f : Bool) (s : State) : State :=
  { s with pstate := { s.pstate with n := n, z := z, c := c, v := v, d := d, a := a, i := i, f := f } }

section Flags

variable (n z c v d a i f : Bool)

theorem formCarries_withFlags (base : XSp) : FormCarries (withFlags n z c v d a i f) base where
  setVregs _ _ := rfl
  writeBase s w := by
    cases base with
    | x i => rfl
    | sp =>
      show (withFlags n z c v d a i f s).setSpAt s.spLevel w = _
      rw [writeBase, State.writeSp]
      cases s.spLevel <;> rfl
  setPc _ _ := rfl
  tick _ := rfl
  pc _ := rfl
  v _ := rfl
  freeCount _ := rfl

theorem readsAgree_withFlags (base : XSp) (s : State) :
    ReadsAgree base s (withFlags n z c v d a i f s) where
  platform := rfl
  level := rfl
  simd := rfl
  base := by cases base <;> rfl
  align := rfl
  order := rfl
  bytes := rfl

end Flags

section WriteX

variable (j : Fin 31) (w : Word)

theorem formCarries_writeX {n : XSp} (hn : n ≠ .x j) : FormCarries (fun s => s.writeX j w) n where
  setVregs _ _ := rfl
  writeBase s u := by
    cases n with
    | x i =>
      have distinct : j.val ≠ i.val := fun h => hn (congrArg XSp.x (Fin.ext h.symm))
      simp only [writeBase, State.writeX, Vector.set_comm _ _ distinct]
    | sp =>
      show (s.writeX j w).setSpAt s.spLevel u = _
      rw [writeBase, State.writeSp]
      cases s.spLevel <;> rfl
  setPc _ _ := rfl
  tick _ := rfl
  pc _ := rfl
  v _ := rfl
  freeCount _ := rfl

theorem entryCarries_writeX : EntryCarries (fun s => s.writeX j w) where
  setBank _ y _ := by cases y <;> rfl
  setPstate _ _ := rfl
  setPc _ _ := rfl
  tick _ := rfl
  bank _ y := by cases y <;> rfl
  pstate _ := rfl
  pc _ := rfl
  target _ _ := rfl
  syndrome _ _ := rfl
  faultAddress _ _ := rfl

theorem readsAgree_writeX {n : XSp} (hn : n ≠ .x j) (s : State) : ReadsAgree n s (s.writeX j w) where
  platform := rfl
  level := rfl
  simd := rfl
  base := by
    cases n with
    | x i => exact (State.readX_writeX s j i w).trans (if_neg fun h => hn (congrArg XSp.x h))
    | sp => rfl
  align := rfl
  order := rfl
  bytes := rfl

theorem offsetValue_writeX {post : PostIndex} (hp : post ≠ .reg j) (s : State) (sz : ElemSize) :
    offsetValue (s.writeX j w) sz post = offsetValue s sz post := by
  cases post with
  | none => rfl
  | imm => rfl
  | reg m =>
    have distinct : m ≠ j := fun h => hp (congrArg PostIndex.reg h)
    simp only [offsetValue, State.readX_writeX, if_neg distinct]

end WriteX

end Sys2Proof.Machine

namespace Sys2Proof.Proofs

open Sys2Proof.Machine Sys2Proof.Safety

/-- Settles O35: a form commutes with the change of these registers. -/
theorem unnamedStateDoesNotMatter : Obligations.UnnamedStateDoesNotMatter := by
  intro i s fp debug hidden ident
  have offset : offsetValue (withUnnamed fp debug hidden ident s) i.elemSize i.post =
      offsetValue s i.elemSize i.post := by cases i.post <;> rfl
  refine (exec_commutes i s (readsAgree_withUnnamed fp debug hidden ident i.base s) offset
    (formCarries_withUnnamed ..) (entryCarries_withUnnamed ..)).trans ?_
  cases exec i s <;> rfl

/-- Settles O36: the checks and reads see neither flags nor masks, and the writes carry them along. -/
theorem flagsDoNotMatter : Obligations.FlagsDoNotMatter := by
  intro i s s' n z c v d a g f p ready step
  have agree : ReadsAgree i.base s (p s) := readsAgree_withFlags n z c v d a g f i.base s
  have carries : FormCarries p i.base := formCarries_withFlags n z c v d a g f i.base
  have offset : offsetValue (p s) i.elemSize i.post = offsetValue s i.elemSize i.post := by
    cases i.post <;> rfl
  have load := (ld4Load_eq_ok_iff s _ _ _ _).2 ⟨ready, rfl, rfl⟩
  rw [exec_ready s i ready] at step
  cases step
  rw [exec_eq, formOutcome, ld4Single, agree.ld4Load_eq, load]
  exact congrArg Host.Outcome.next (carries.ld4Commit_eq _ _ _ _ _ _ offset)

/-- Settles O37: a form commutes with the write of a register it does not name. -/
theorem unnamedGeneralRegistersDoNotMatter : Obligations.UnnamedGeneralRegistersDoNotMatter := by
  intro i s j w hbase hpost
  refine (exec_commutes i s (readsAgree_writeX j w hbase s) (offsetValue_writeX j w hpost s i.elemSize)
    (formCarries_writeX j w hbase) (entryCarries_writeX j w)).trans ?_
  cases exec i s <;> rfl

end Sys2Proof.Proofs
end

section
/-!
PROOFS. Saved status, routing, syndromes and the return from an exception (`10_state.md` R29,
`60_exceptions.md` R97, R101, R102, R104).
-/

namespace Sys2Proof.Machine

open Sys2Proof.Safety

variable (s : State) (e : SyncException)

/-! ### The saved status (R29) -/

/-- A field of the saved status none of whose bits is listed is 0 (entry 33). -/
theorem extractLsb'_spsrOfPstate_unlisted (p : Pstate) :
    (spsrOfPstate p).extractLsb' 22 6 = 0#6 ∧ (spsrOfPstate p).extractLsb' 10 10 = 0#10 ∧
      (spsrOfPstate p).getLsbD 5 = false := by
  refine ⟨BitVec.eq_of_getLsbD_eq fun j hj => ?_, BitVec.eq_of_getLsbD_eq fun j hj => ?_, ?_⟩
  · rw [BitVec.getLsbD_extractLsb', getLsbD_spsrOfPstate _ _ (by omega)]
    interval_cases j <;> rfl
  · rw [BitVec.getLsbD_extractLsb', getLsbD_spsrOfPstate _ _ (by omega)]
    interval_cases j <;> rfl
  · rw [getLsbD_spsrOfPstate _ _ (by decide)]
    rfl

/-! ### Routing (R101) -/

/-- Every exception but the SIMD trap is routed by the level it is raised at. -/
theorem exceptionTarget_eq_default (h : ∀ x, e ≠ .simdAccessTrap x) :
    exceptionTarget e s = defaultTarget s := by
  cases e with
  | simdAccessTrap x => exact absurd rfl (h x)
  | _ => rfl

theorem defaultTarget_el0 (hel : s.pstate.el = .el0) :
    defaultTarget s = if El2Here s ∧ s.tge = true then .el2 else .el1 := by
  simp only [defaultTarget, hel, Bool.and_eq_true, el2Applies_iff]

theorem defaultTarget_level (hel : s.pstate.el ≠ .el0) :
    (defaultTarget s).level = s.pstate.el := by
  unfold defaultTarget
  split
  next h0 => exact absurd h0 hel
  all_goals next h => rw [h]; rfl

/-- The SIMD check names no level below the current one. -/
theorem simdTrap_rank {x : TargetEl} (h : simdTrap s = some (.simdAccessTrap x)) :
    elRank s.pstate.el ≤ elRank x.level := by
  rw [simdTrap_eq] at h
  split_ifs at h with disabled rerouted el2 el3 <;> cases h
  · rcases disabled with ⟨hel, -⟩ | ⟨hel, -⟩ <;> rw [hel] <;> decide
  · exact (elRank_le_two_iff _).2 el2.2.1
  · cases s.pstate.el <;> decide

/-! ### The registers of the target (R97) -/

theorem takeSync_elr : ((takeSync e s).bank (exceptionTarget e s)).elr = s.pc := by
  rw [takeSync_bank, if_pos rfl]

theorem takeSync_spsr :
    ((takeSync e s).bank (exceptionTarget e s)).spsr = spsrOfPstate s.pstate := by
  rw [takeSync_bank, if_pos rfl]

theorem takeSync_esr : ((takeSync e s).bank (exceptionTarget e s)).esr = syndrome e s := by
  rw [takeSync_bank, if_pos rfl]

theorem takeSync_far :
    ((takeSync e s).bank (exceptionTarget e s)).far =
      (faultAddress e s).getD (s.bank (exceptionTarget e s)).far := by
  rw [takeSync_bank, if_pos rfl]

theorem takeSync_bankKept {y : TargetEl} (hy : y ≠ exceptionTarget e s) :
    BankKept s (takeSync e s) y :=
  bankKept_of_bank_eq (by rw [takeSync_bank, if_neg hy])

theorem takeSync_configurationKept : ConfigurationKept s (takeSync e s) := by
  simp [ConfigurationKept]

theorem takeSync_entryKeeps : EntryKeeps s (takeSync e s) :=
  ⟨takeSync_readX s e, takeSync_spAt s e, takeSync_readV s e, takeSync_configurationKept s e⟩

/-- The syndrome of an instruction abort: the class by the level, and six free bits. -/
theorem esrWord_instructionAbort (target : TargetEl) (status : BitVec 6) :
    esrWord (abortClass 0x20#6 target s) (status.setWidth 25) =
      (if target.level = s.pstate.el then 0x86000000#32 else 0x82000000#32) + status.setWidth 32 := by
  unfold abortClass
  split <;> (revert status; decide)

/-- The syndrome of a data abort: the class by the level, and the fault status. -/
theorem esrWord_dataAbort (target : TargetEl) (status : BitVec 6) :
    esrWord (abortClass 0x24#6 target s) (status.setWidth 25) =
      (if target.level = s.pstate.el then 0x96000000#32 else 0x92000000#32) + status.setWidth 32 := by
  unfold abortClass
  split <;> (revert status; decide)

theorem esrWord_dataAbortAlignment (target : TargetEl) :
    esrWord (abortClass 0x24#6 target s) 0b100001#25 =
      if target.level = s.pstate.el then 0x96000021#32 else 0x92000021#32 := by
  refine (esrWord_dataAbort s target 0b100001#6).trans ?_
  split <;> rfl

/-- The fault status of a data abort is one of the listed kinds. -/
theorem dfscOf_listed (kind : DataFaultStatus) :
    (dfscOf kind).extractLsb' 2 4 = 0b0001#4 ∨ (dfscOf kind).extractLsb' 2 4 = 0b0010#4 ∨
      (dfscOf kind).extractLsb' 2 4 = 0b0011#4 ∨ dfscOf kind = 0b010000#6 := by
  cases kind with
  | translation ll => exact .inl BitVec.extractLsb'_append_eq_left
  | accessFlag ll => exact .inr (.inl BitVec.extractLsb'_append_eq_left)
  | permission ll => exact .inr (.inr (.inl BitVec.extractLsb'_append_eq_left))
  | syncExternal => exact .inr (.inr (.inr rfl))

/-! ### The return (R104) -/

theorem elOfBits_eq_el2_iff (b : BitVec 2) : elOfBits b = .el2 ↔ b = 2#2 := by
  revert b; decide

/-- What makes a return from a level of rank `rank` illegal (entry 22). -/
abbrev IllegalReturn (rank : Nat) (r : BitVec 32) : Prop :=
  r.getLsbD 1 = true ∨ (r.extractLsb' 2 2 = 0#2 ∧ r.getLsbD 0 = true) ∨
    rank < (r.extractLsb' 2 2).toNat ∨ haveEl s.platform (elOfBits (r.extractLsb' 2 2)) = false ∨
    (r.extractLsb' 2 2 = 2#2 ∧ s.platform.hasEl3 = true ∧ s.sys.scrEl3.getLsbD 0 = false)

theorem knownMode_iff (r : BitVec 32) :
    knownMode r = true ↔
      r.getLsbD 1 = false ∧ (r.extractLsb' 2 2 = 0#2 → r.getLsbD 0 = false) := by
  simp only [knownMode, Bool.and_eq_true, Bool.or_eq_true, Bool.not_eq_true', bne_iff_ne,
    Decidable.imp_iff_not_or, ne_eq]

/-- Where EL2 is implemented, the levels below EL3 are Secure by `SCR_EL3.NS` alone (R27). -/
theorem lowerSecure_of_hasEl2 (h : s.platform.hasEl2 = true) :
    s.lowerSecure = true ↔ s.platform.hasEl3 = true ∧ s.sys.scrEl3.getLsbD 0 = false := by
  unfold State.lowerSecure
  split <;> simp_all

theorem legalReturn_iff (r : BitVec 32) :
    legalReturn r s = true ↔ ¬IllegalReturn s (elRank s.pstate.el) r := by
  have secureEl2 : haveEl s.platform (elOfBits (r.extractLsb' 2 2)) = true →
      r.extractLsb' 2 2 = 2#2 →
      (s.lowerSecure = true ↔ s.platform.hasEl3 = true ∧ s.sys.scrEl3.getLsbD 0 = false) := by
    intro have2 named
    rw [(elOfBits_eq_el2_iff _).2 named] at have2
    exact lowerSecure_of_hasEl2 s have2
  simp only [legalReturn, Bool.and_eq_true, Bool.or_eq_true, bne_iff_ne, ne_eq, elOfBits_eq_el2_iff,
    knownMode_iff, decide_eq_true_eq, elRank_elOfBits, Bool.not_eq_true', not_or, not_and, not_lt,
    Bool.not_eq_true, Bool.not_eq_false, and_assoc]
  refine and_congr_right fun _ => and_congr_right fun _ => ?_
  rw [and_left_comm]
  refine and_congr_right fun _ => and_congr_right fun implemented => ?_
  by_cases named : r.extractLsb' 2 2 = 2#2
  · have secure := secureEl2 implemented named
    rw [← Bool.not_eq_true, secure]
    simp [named]
  · simp [named]

/-- A return changes PSTATE and the pc only. -/
theorem entryKeeps_return (p : Pstate) (a : Word) : EntryKeeps s ((s.setPstate p).setPc a) := by
  simp [EntryKeeps, ConfigurationKept]

theorem bankKept_return (p : Pstate) (a : Word) (y : TargetEl) :
    BankKept s ((s.setPstate p).setPc a) y :=
  bankKept_of_bank_eq (by rw [State.bank_setPc, State.bank_setPstate])

theorem entryKeeps_trans {s s' s'' : State} (h : EntryKeeps s s') (h' : EntryKeeps s' s'') :
    EntryKeeps s s'' := by
  obtain ⟨x, sp, v, sys, fp, dbg, hidden, read, mem, text, platform⟩ := h
  obtain ⟨x', sp', v', sys', fp', dbg', hidden', read', mem', text', platform'⟩ := h'
  exact ⟨fun j => (x' j).trans (x j), fun l => (sp' l).trans (sp l), fun r => (v' r).trans (v r),
    sys'.trans sys, fp'.trans fp, dbg'.trans dbg, hidden'.trans hidden,
    fun a => (read' a).trans (read a), mem'.trans mem, text'.trans text, platform'.trans platform⟩

theorem bankKept_trans {s s' s'' : State} {y : TargetEl} (h : BankKept s s' y)
    (h' : BankKept s' s'' y) : BankKept s s'' y := by
  obtain ⟨elr, spsr, esr, far, vbar, sctlr⟩ := h
  obtain ⟨elr', spsr', esr', far', vbar', sctlr'⟩ := h'
  exact ⟨elr'.trans elr, spsr'.trans spsr, esr'.trans esr, far'.trans far, vbar'.trans vbar,
    sctlr'.trans sctlr⟩

/-- The mode an exception was taken from is one the handler may return to. -/
theorem legalReturn_takeSync (legal : LegalMode s)
    (rank : elRank s.pstate.el ≤ elRank (exceptionTarget e s).level) :
    legalReturn (spsrOfPstate s.pstate) (takeSync e s) = true := by
  obtain ⟨implemented, sp0, nonSecure⟩ := legal
  have known := knownMode_spsrOfPstate s.pstate sp0
  have lower : s.pstate.el = .el2 → (takeSync e s).lowerSecure = false := by
    intro hel
    have unfolded := nonSecure hel
    rw [State.secure, Bool.or_eq_false_iff] at unfolded
    rw [← unfolded.2, State.lowerSecure, State.lowerSecure, takeSync_platform, takeSync_sys]
  simp only [legalReturn, known, elBits_spsrOfPstate, elOfBits_elBits, takeSync_platform, implemented,
    takeSync_pstate, Bool.true_and, Bool.and_eq_true, decide_eq_true_eq, Bool.or_eq_true, bne_iff_ne,
    Bool.not_eq_true']
  exact ⟨rank, Decidable.not_or_of_imp lower⟩

/-- The state after an exception and the return from it. -/
def enteredAndLeft : State := ((takeSync e s).setPstate s.pstate).setPc s.pc

@[simp] theorem enteredAndLeft_pstate : (enteredAndLeft s e).pstate = s.pstate := rfl

@[simp] theorem enteredAndLeft_pc : (enteredAndLeft s e).pc = s.pc := rfl

/-- A return right after the entry gives back PSTATE and the pc. -/
theorem exceptionReturn_takeSync (legal : LegalMode s) (aarch64 : s.pstate.nRW = false)
    (rank : elRank s.pstate.el ≤ elRank (exceptionTarget e s).level) :
    exceptionReturn (takeSync e s) = .next (enteredAndLeft s e) := by
  have width : (spsrOfPstate s.pstate).getLsbD 4 = false := by
    rw [getLsbD_spsrOfPstate _ _ (by decide), ← aarch64]
    rfl
  have restored : pstateOfSpsr (takeSync e s).pstate (spsrOfPstate s.pstate) = s.pstate :=
    pstateOfSpsr_spsrOfPstate _ _ rfl rfl
  rw [exceptionReturn_eq (takeSync e s) (exceptionTarget e s) rfl, takeSync_spsr, takeSync_elr, width,
    if_neg Bool.false_ne_true, if_pos (legalReturn_takeSync s e legal rank), restored]
  rfl

theorem enteredAndLeft_entryKeeps : EntryKeeps s (enteredAndLeft s e) :=
  entryKeeps_trans (takeSync_entryKeeps s e) (entryKeeps_return ..)

theorem enteredAndLeft_bankKept_entry (y : TargetEl) : BankKept (takeSync e s) (enteredAndLeft s e) y :=
  bankKept_return ..

theorem enteredAndLeft_bank_vbar (y : TargetEl) :
    ((enteredAndLeft s e).bank y).vbar = (s.bank y).vbar := by
  simp [enteredAndLeft]

theorem enteredAndLeft_bank_sctlr (y : TargetEl) :
    ((enteredAndLeft s e).bank y).sctlr = (s.bank y).sctlr := by
  simp [enteredAndLeft]

/-! ### A form after the return -/

/-- The SIMD check sees the platform, PSTATE and the trap registers only. -/
theorem checkSimdEnabled_congr {s s' : State} (hplatform : s'.platform = s.platform)
    (hpstate : s'.pstate = s.pstate) (hsys : s'.sys = s.sys) :
    checkSimdEnabled s' = checkSimdEnabled s := by
  cases s
  cases s'
  cases hplatform
  cases hpstate
  cases hsys
  rfl

theorem sctlr_congr {s s' : State} (hpstate : s'.pstate = s.pstate)
    (hsctlr : ∀ x, (s'.bank x).sctlr = (s.bank x).sctlr) : s'.sctlr = s.sctlr := by
  rw [State.sctlr, State.sctlr, hpstate]
  split
  · exact hsctlr .el1
  · exact hsctlr .el1
  · exact hsctlr .el2
  · exact hsctlr .el3

/-- The checks of a form come out the same once PSTATE, the registers and the controls are back. -/
theorem checksAgree_of_entryKeeps {s s' : State} (n : XSp) (kept : EntryKeeps s s')
    (hpstate : s'.pstate = s.pstate) (hsctlr : ∀ x, (s'.bank x).sctlr = (s.bank x).sctlr) :
    ChecksAgree n s s' := by
  obtain ⟨x, sp, -, sys, -, -, -, -, -, -, platform⟩ := kept
  refine ⟨platform, by rw [hpstate], checkSimdEnabled_congr platform hpstate sys, ?_, by
    rw [State.alignCheck, State.alignCheck, sctlr_congr hpstate hsctlr]⟩
  cases n with
  | x i => exact x i
  | sp =>
    show s'.readSp = s.readSp
    rw [State.readSp, sp, State.spLevel, hpstate]
    rfl

/-- A form that every check lets through completes after an exception and the return from it as well. -/
theorem exec_enteredAndLeft (i : Instr) (wf : i.wellFormed = true)
    (ready : LoadReady s i.base i.elemSize) :
    ∃ s', exec i (enteredAndLeft s e) = .next s' ∧ s'.pc = s.pc + 4#64 ∧
      StructureLoaded (enteredAndLeft s e) s' i.first i.lane i.elemSize (baseValue s i.base) := by
  have agree := checksAgree_of_entryKeeps i.base (enteredAndLeft_entryKeeps s e) rfl
    (enteredAndLeft_bank_sctlr s e)
  refine ⟨_, exec_ready _ i (agree.loadReady ready), rfl, ?_⟩
  rw [agree.base]
  exact ld4Commit_loaded _ _ _ _ _ _ _ (i.wellFormed_iff.1 wf)

theorem entryCarries_withCpacr (c : BitVec 32) : EntryCarries (fun s => withCpacr s c) where
  setBank _ y _ := by cases y <;> rfl
  setPstate _ _ := rfl
  setPc _ _ := rfl
  tick _ := rfl
  bank _ y := by cases y <;> rfl
  pstate _ := rfl
  pc _ := rfl
  target _ _ := rfl
  syndrome _ _ := rfl
  faultAddress _ _ := rfl

end Sys2Proof.Machine

namespace Sys2Proof.Proofs

open Sys2Proof.Machine Sys2Proof.Safety

/-- Settles O23. -/
theorem spsrHoldsThePstate : Obligations.SpsrHoldsThePstate := by
  refine ⟨fun p => ?layout, fun x kind esr addr ret s => ?saved⟩
  case layout =>
    obtain ⟨high, middle, bit5⟩ := extractLsb'_spsrOfPstate_unlisted p
    exact ⟨spsrShows_spsrOfPstate p, high, middle, bit5, fun old => pstateOfSpsr_spsrOfPstate old p⟩
  case saved => rw [takeException_bank_target]

/-- Settles O24. -/
theorem exceptionRouting : Obligations.ExceptionRouting := by
  refine fun e s => ⟨fun x he => he ▸ rfl, fun notTrap => ?byLevel, fun trap => ?notLower, rfl,
    takeSync_elr s e⟩
  case byLevel =>
    rw [exceptionTarget_eq_default s e notTrap]
    refine ⟨fun hel h2 hs htge => ?_, fun hel not2 => ?_, defaultTarget_level s⟩
    · rw [defaultTarget_el0 s hel, if_pos ⟨⟨h2, hs⟩, htge⟩]
    · rw [defaultTarget_el0 s hel, if_neg fun ⟨⟨h2, hs⟩, htge⟩ => not2 ⟨h2, hs, htge⟩]
  case notLower =>
    by_cases isTrap : ∃ x, e = .simdAccessTrap x
    · obtain ⟨x, rfl⟩ := isTrap
      exact simdTrap_rank s (trap x rfl)
    · exact exceptionTarget_rank s e fun x he => isTrap ⟨x, he⟩

/-- Settles O25: the entry writes the syndrome and the fault address, row by row of the table. -/
theorem syndromesAndFaultAddresses : Obligations.SyndromesAndFaultAddresses := by
  intro s a
  simp only [takeSync_esr, takeSync_far]
  refine ⟨⟨rfl, rfl⟩, ⟨⟨Config.instrFaultStatus s.freeCount, esrWord_instructionAbort ..⟩, rfl⟩,
    ⟨rfl, rfl⟩, ⟨rfl, rfl⟩, fun x => ⟨rfl, rfl⟩, rfl, ⟨esrWord_dataAbortAlignment .., rfl⟩,
    ⟨dfscOf (Config.dataFaultStatus s.freeCount), dfscOf_listed _, esrWord_dataAbort ..⟩, rfl⟩

/-- Settles O26: the saved status is a legal mode and holds the PSTATE it came from. -/
theorem returnUndoesTheEntry : Obligations.ReturnUndoesTheEntry := by
  intro e s legal aarch64 rank
  exact ⟨_, exceptionReturn_takeSync s e legal aarch64 rank, enteredAndLeft_pstate s e,
    enteredAndLeft_pc s e, enteredAndLeft_entryKeeps s e,
    fun y hy => bankKept_trans (takeSync_bankKept s e hy) (enteredAndLeft_bankKept_entry s e y),
    enteredAndLeft_bank_vbar s e _, enteredAndLeft_bank_sctlr s e _,
    enteredAndLeft_bankKept_entry s e⟩

/-- Settles O27: above EL0 a return is legal or sets `PSTATE.IL`. -/
theorem exceptionReturnFollowsTheRule : Obligations.ExceptionReturnFollowsTheRule := by
  refine ⟨exceptionReturn_el0, fun s x hel => ⟨fun width => ?aarch32, fun width legal => ?legal,
    fun width illegal => ?illegal⟩⟩
  case aarch32 => rw [exceptionReturn_eq s x hel, if_pos width]
  case legal =>
    have allowed := legal
    rw [← hel] at allowed
    have bit1 : (s.bank x).spsr.getLsbD 1 = false :=
      Bool.eq_false_iff.2 fun h => legal (.inl h)
    have rank : ((s.bank x).spsr.extractLsb' 2 2).toNat ≤ elRank s.pstate.el :=
      Nat.le_of_not_lt fun h => allowed (.inr (.inr (.inl h)))
    rw [exceptionReturn_eq s x hel, width, if_neg Bool.false_ne_true,
      if_pos ((legalReturn_iff s _).2 allowed)]
    refine ⟨_, rfl, rfl, spsrShows_pstateOfSpsr s.pstate _ bit1, rfl, rfl, ?_, entryKeeps_return ..,
      bankKept_return s _ _⟩
    exact (elRank_elOfBits _).trans_le rank
  case illegal =>
    have refused : ¬legalReturn (s.bank x).spsr s = true := by
      rw [legalReturn_iff, hel]
      exact not_not_intro illegal
    rw [exceptionReturn_eq s x hel, width, if_neg Bool.false_ne_true, if_neg refused]
    exact ⟨_, rfl, rfl, rfl, rfl, rfl, rfl, entryKeeps_return .., bankKept_return s _ _⟩

/-- Settles O28: the handler's write commutes with the entry, so that the return is one right after an
entry from the state with access enabled, whose checks pass again. -/
theorem trappedLoadRunsAgainAfterReturn : Obligations.TrappedLoadRunsAgainAfterReturn := by
  intro i s c wf legal aarch64 ready disabled notRerouted
  have ⟨⟨simd, host, _⟩, _⟩ := ready
  have trap : simdTrap s = some (.simdAccessTrap .el1) := by
    rw [simdTrap_eq, if_pos disabled, if_neg fun ⟨hel, ⟨h2, hs⟩, htge⟩ => notRerouted ⟨hel, h2, hs, htge⟩]
  have handled : withCpacr (takeSync (.simdAccessTrap .el1) s) c =
      takeSync (.simdAccessTrap .el1) (withCpacr s c) :=
    ((entryCarries_withCpacr c).takeSync_eq _ s).symm
  have back := exceptionReturn_takeSync (withCpacr s c) (.simdAccessTrap .el1) legal aarch64
    (simdTrap_rank s trap)
  have sameBase : baseValue (withCpacr s c) i.base = baseValue s i.base := by cases i.base <;> rfl
  obtain ⟨s₃, again, pc, loaded⟩ :=
    exec_enteredAndLeft (withCpacr s c) (.simdAccessTrap .el1) i wf ready
  rw [← handled] at back
  rw [sameBase] at loaded
  exact ⟨_, _, s₃, exec_simdTrap s i simd host trap, rfl, back, enteredAndLeft_pc _ _,
    enteredAndLeft_pstate _ _, enteredAndLeft_entryKeeps _ _, again, pc, loaded⟩

end Sys2Proof.Proofs
end

section
/-!
PROOFS. The step, its outcomes and runs (`00_scope.md` R9, `60_exceptions.md` R96 to R103,
`70_reset_and_hazards.md` R118), and what every step keeps.
-/

namespace Sys2Proof.Machine

open Sys2Proof.Safety

variable (s : State)

/-! ### The checks before the word (`20_memory.md` R52, `60_exceptions.md` R100) -/

theorem step_of_raise {e : SyncException} (h : fetchDecode s = .raise e) :
    step s = .next (takeSync e s) := by
  simp only [step, h]

theorem step_of_refuse {r : Refusal} (h : fetchDecode s = .refuse r) : step s = .refused r := by
  simp only [step, h]

theorem step_notAdmitted {r : Refusal} (h : notAdmitted s = some r) : step s = .refused r :=
  step_of_refuse s (by rw [fetchDecode, h])

theorem fetchDecode_misaligned (h : Admitted s) (unaligned : s.pc.toNat % 4 ≠ 0) :
    fetchDecode s = .raise (.pcAlignmentFault s.pc) := by
  rw [fetchDecode_admitted s h, if_pos unaligned]

theorem fetchDecode_notExecutable (h : Admitted s) (aligned : s.pc.toNat % 4 = 0)
    (code : ¬CodeExecutable s) : fetchDecode s = .raise (.instructionAbort s.pc) := by
  rw [codeExecutable_iff] at code
  rw [fetchDecode_admitted s h, if_neg (not_not_intro aligned), if_pos (by simpa using code)]

section Executable

variable (h : Admitted s) (aligned : s.pc.toNat % 4 = 0) (code : CodeExecutable s)

include h aligned code

theorem fetchDecode_executable :
    fetchDecode s =
      if (wordAddresses s.pc).any (fun a => isShared s.platform a) then
        .refuse (.codeWrittenByOthers s.pc)
      else if s.pstate.il then .raise .illegalState
      else decodedStep (fetchedWord s) := by
  rw [fetchDecode_admitted s h, if_neg (not_not_intro aligned),
    if_neg (by simp [(codeExecutable_iff s).1 code])]

theorem fetchDecode_shared (shared : ¬CodeUnshared s) :
    fetchDecode s = .refuse (.codeWrittenByOthers s.pc) := by
  rw [codeUnshared_iff, Bool.not_eq_false] at shared
  rw [fetchDecode_executable s h aligned code, if_pos shared]

theorem fetchDecode_illegalState (unshared : CodeUnshared s) (il : s.pstate.il = true) :
    fetchDecode s = .raise .illegalState := by
  rw [fetchDecode_executable s h aligned code, if_neg (by simp [(codeUnshared_iff s).1 unshared]),
    if_pos il]

end Executable

theorem step_execute {w : InstrWord} {i : Instr} (ready : FetchReady s) (hw : WordAt s w)
    (h : decode w = .instr i) : step s = exec i s := by
  simp only [step, fetchDecode_wordAt s ready hw, decodedStep, h]

/-- The pc stays a multiple of 4 when a multiple of 4 is added. -/
theorem add_toNat_mod_four {a b : Word} (ha : a.toNat % 4 = 0) (hb : b.toNat % 4 = 0) :
    (a + b).toNat % 4 = 0 := by
  rw [BitVec.toNat_add]
  omega

/-! ### A step that completes -/

/-- A completed step has executed the form at the pc, with the writes of R78. -/
theorem completes_commits {s s' : State} (h : Completes s s') :
    ∃ i : Instr, decode (fetchedWord s) = .instr i ∧
      s' = ld4Commit i.first i.base i.lane i.elemSize i.post (baseValue s i.base)
        (elements s (baseValue s i.base) i.elemSize) s := by
  obtain ⟨i, fetched, ready, next⟩ := h
  simp only [step, fetched, exec_ready s i ready, Host.Outcome.next.injEq] at next
  exact ⟨i, decode_of_fetchDecode s fetched, next.symm⟩

theorem completes_pc {s s' : State} (h : Completes s s') : s'.pc = s.pc + 4#64 := by
  obtain ⟨i, -, rfl⟩ := completes_commits h
  exact ld4Commit_pc ..

theorem completes_restKept {s s' : State} (h : Completes s s') : RestKept s s' := by
  obtain ⟨i, -, rfl⟩ := completes_commits h
  exact ld4Commit_restKept ..

theorem completes_unique {s s' s'' : State} (h : Completes s s') (h' : Completes s s'') :
    s' = s'' := by
  rw [← stepOutcome_eq_next_iff] at h h'
  exact SpecOutcome.next.inj (h.symm.trans h')

/-! ### A step that faults (R103) -/

/-- At a fault the pc is the old one, and no more than lanes of the fetched form have changed. -/
theorem fault_state {e : SyncException} {s₁ : State} (h : stepOutcome s = .fault e s₁) :
    s₁ = s.setVregs s₁.v := by
  rcases stepOutcome_eq_fault s h with ⟨-, rfl⟩ | ⟨i, -, -, rfl⟩
  · rfl
  · exact (ld4AtFault_lanes s e i.first i.lane i.elemSize).1

/-- A Data Abort comes from a form, after no more than its lanes have changed. -/
theorem fault_dataAbort {e : SyncException} {s₁ : State} (h : stepOutcome s = .fault e s₁) {a : Word}
    (abort : e = .dataAbortAlignment a ∨ e = .dataAbortOther a) :
    ∃ i : Instr, fetchDecode s = .execute i ∧ OnlyLanesDiffer s s₁ i.first i.lane i.elemSize := by
  rcases stepOutcome_eq_fault s h with ⟨raised, -⟩ | ⟨i, fetched, -, rfl⟩
  · have kinds := (fetchDecode_raise s raised).2
    rcases abort with rfl | rfl <;> simp at kinds
  · exact ⟨i, fetched, ld4AtFault_lanes s e _ _ _⟩

theorem fault_notDataAbort {e : SyncException} {s₁ : State} (h : stepOutcome s = .fault e s₁)
    (noAbort : ∀ a, e ≠ .dataAbortAlignment a ∧ e ≠ .dataAbortOther a) : s₁ = s := by
  rcases stepOutcome_eq_fault s h with ⟨-, rfl⟩ | ⟨i, -, -, rfl⟩
  · rfl
  · exact ld4AtFault_eq s e _ _ _ noAbort

/-- A synchronous exception starts its handler at one of three vectors (R102). -/
theorem vectorOffset_synchronous (x : TargetEl) (old : Pstate) :
    vectorOffset x old .synchronous = 0x000#64 ∨ vectorOffset x old .synchronous = 0x200#64 ∨
      vectorOffset x old .synchronous = 0x400#64 := by
  rw [vectorOffset_eq]
  split
  · exact .inr (.inr rfl)
  · split
    · exact .inl rfl
    · exact .inr (.inl rfl)

/-! ### What every step keeps -/

/-- Before the entry only vector registers differ, so the entry keeps what it keeps of the old state. -/
theorem takeSync_setVregs_configurationKept (e : SyncException) (v : Vector VWord 32) :
    ConfigurationKept s (takeSync e (s.setVregs v)) :=
  takeSync_configurationKept (s.setVregs v) e

theorem step_configurationKept {s' : State} (h : step s = .next s') : ConfigurationKept s s' := by
  rcases step_cases s h with ⟨i, -, rfl⟩ | ⟨e, v, rfl, -⟩
  · obtain ⟨-, -, kept⟩ := ld4Commit_restKept s i.first i.base i.lane i.elemSize i.post
      (baseValue s i.base) (elements s (baseValue s i.base) i.elemSize)
    exact kept
  · exact takeSync_setVregs_configurationKept s e v

theorem step_keeps_vbar_sctlr {s' : State} (h : step s = .next s') (x : TargetEl) :
    (s'.bank x).vbar = (s.bank x).vbar ∧ (s'.bank x).sctlr = (s.bank x).sctlr := by
  rcases step_cases s h with ⟨i, -, rfl⟩ | ⟨e, v, rfl, -⟩
  · obtain ⟨-, -, -, -, kept⟩ := ld4Commit_bankKept s i.first i.base i.lane i.elemSize i.post
      (baseValue s i.base) (elements s (baseValue s i.base) i.elemSize) x
    exact kept
  · simp

/-- The entry of an exception that a step raises is not to a lower level (R96, R101). -/
theorem takenTarget_rank {e : SyncException}
    (trap : ∀ x, e = .simdAccessTrap x → elRank s.pstate.el ≤ elRank x.level) :
    elRank s.pstate.el ≤ elRank (exceptionTarget e s).level := by
  by_cases isTrap : ∃ x, e = .simdAccessTrap x
  · obtain ⟨x, rfl⟩ := isTrap
    exact trap x rfl
  · exact exceptionTarget_rank s e fun x he => isTrap ⟨x, he⟩

theorem takenTarget_implemented {e : SyncException}
    (trap : ∀ x, e = .simdAccessTrap x → haveEl s.platform x.level = true)
    (current : haveEl s.platform s.pstate.el = true) :
    haveEl s.platform (exceptionTarget e s).level = true := by
  by_cases isTrap : ∃ x, e = .simdAccessTrap x
  · obtain ⟨x, rfl⟩ := isTrap
    exact trap x rfl
  · exact exceptionTarget_implemented s e (fun x he => isTrap ⟨x, he⟩) current

/-- An exception goes to EL2 from Non-secure state only (R27, R101). -/
theorem takenTarget_nonSecure {e : SyncException}
    (trap : ∀ x, e = .simdAccessTrap x → x = .el2 → s.secure = false)
    (current : s.pstate.el = .el2 → s.secure = false)
    (target : (exceptionTarget e s).level = .el2) : s.secure = false := by
  by_cases isTrap : ∃ x, e = .simdAccessTrap x
  · obtain ⟨x, rfl⟩ := isTrap
    refine trap x rfl ?_
    cases x with
    | el1 => cases target
    | el2 => rfl
    | el3 => cases target
  · rw [exceptionTarget_eq_default s e fun x he => isTrap ⟨x, he⟩] at target
    by_cases hel : s.pstate.el = .el0
    · rw [defaultTarget_el0 s hel] at target
      split at target
      next h => exact h.1.2
      next => cases target
    · rw [defaultTarget_level s hel] at target
      exact current target

/-- Below EL3 the Security state does not depend on the level. -/
theorem secure_eq_false_of_below {s s' : State} (hplatform : s'.platform = s.platform)
    (hsys : s'.sys = s.sys) (below : s'.pstate.el ≠ .el3) (h : s.secure = false) :
    s'.secure = false := by
  rw [State.secure, Bool.or_eq_false_iff] at h ⊢
  refine ⟨by simp [below], ?_⟩
  rw [← h.2, State.lowerSecure, State.lowerSecure, hplatform, hsys]

/-- A handler runs in a legal mode when the exception was raised in one. -/
theorem takeSync_legalMode {e : SyncException} (legal : LegalMode s)
    (trap : ∀ x, e = .simdAccessTrap x →
      haveEl s.platform x.level = true ∧ (x = .el2 → s.secure = false)) :
    LegalMode (takeSync e s) := by
  obtain ⟨implemented, -, nonSecure⟩ := legal
  refine ⟨?implemented, fun hel => ?notEl0, fun hel => ?nonSecure⟩
  case implemented =>
    rw [takeSync_platform]
    exact takenTarget_implemented s (fun x he => (trap x he).1) implemented
  case notEl0 =>
    have target : (exceptionTarget e s).level = .el0 := hel
    cases h : exceptionTarget e s <;> rw [h] at target <;> cases target
  case nonSecure =>
    refine secure_eq_false_of_below (takeSync_platform s e) (takeSync_sys s e) ?_
      (takenTarget_nonSecure s (fun x he => (trap x he).2) nonSecure hel)
    rw [hel]
    decide

theorem takeSync_pc_aligned (e : SyncException)
    (vbar : ∀ x, (s.bank x).vbar.toNat % 4 = 0) : (takeSync e s).pc.toNat % 4 = 0 := by
  rw [takeSync_pc]
  refine add_toNat_mod_four (vbar _) ?_
  rcases vectorOffset_synchronous (exceptionTarget e s) s.pstate with h | h | h <;> rw [h] <;> rfl

theorem step_legalMode {s' : State} (legal : LegalMode s) (h : step s = .next s') :
    LegalMode s' := by
  rcases step_cases s h with ⟨i, -, rfl⟩ | ⟨e, v, rfl, trap⟩
  · simpa [LegalMode, State.secure_eq] using legal
  · exact takeSync_legalMode (s.setVregs v) legal fun x he => (trap x he).2

theorem step_pc_aligned {s' : State} (aligned : s.pc.toNat % 4 = 0)
    (vbar : ∀ x, (s.bank x).vbar.toNat % 4 = 0) (h : step s = .next s') : s'.pc.toNat % 4 = 0 := by
  rcases step_cases s h with ⟨i, -, rfl⟩ | ⟨e, v, rfl, -⟩
  · exact add_toNat_mod_four aligned rfl
  · exact takeSync_pc_aligned (s.setVregs v) e fun x => by rw [State.bank_setVregs]; exact vbar x

/-! ### Runs (R118) -/

theorem completesRun_zero_iff {s s' : State} : CompletesRun 0 s s' ↔ s' = s := by
  constructor
  · rintro ⟨⟩
    rfl
  · rintro rfl
    exact .done _

theorem completesRun_succ_iff {k : Nat} {s s'' : State} :
    CompletesRun (k + 1) s s'' ↔ ∃ s', Completes s s' ∧ CompletesRun k s' s'' := by
  constructor
  · rintro ⟨⟩
    exact ⟨_, ‹_›, ‹_›⟩
  · rintro ⟨s', first, rest⟩
    exact .step first rest

theorem runWords_succ_of_completes {s s' : State} (k : Nat) (h : Completes s s') :
    runWords (k + 1) s = runWords k s' := by
  rw [runWords, (stepOutcome_eq_next_iff s s').2 h]

theorem runWords_succ_of_stop {s : State} (k : Nat) (h : ∀ t, ¬Completes s t) :
    runWords (k + 1) s = stepOutcome s := by
  rw [runWords]
  split
  next s' hs => exact absurd ((stepOutcome_eq_next_iff s s').1 hs) (h s')
  next hs => exact hs.symm
  next hs => exact hs.symm

/-- A run is `Done` exactly after `k` completed steps. -/
theorem runWords_eq_next_iff (k : Nat) (s s' : State) :
    runWords k s = .next s' ↔ CompletesRun k s s' := by
  induction k generalizing s with
  | zero => rw [completesRun_zero_iff, runWords, SpecOutcome.next.injEq, eq_comm]
  | succ k ih =>
    rw [completesRun_succ_iff]
    by_cases h : ∃ t, Completes s t
    · obtain ⟨t, ht⟩ := h
      rw [runWords_succ_of_completes k ht, ih]
      exact ⟨fun rest => ⟨t, ht, rest⟩, fun ⟨t', ht', rest⟩ => completes_unique ht ht' ▸ rest⟩
    · have stop : ∀ t, ¬Completes s t := not_exists.1 h
      rw [runWords_succ_of_stop k stop, stepOutcome_eq_next_iff]
      exact ⟨fun done => absurd done (stop s'), fun ⟨t, ht, _⟩ => absurd ht (stop t)⟩

/-- A run ends in an outcome that is not `Done` exactly when a step after fewer than `k` completed ones
has that outcome. -/
theorem runWords_eq_stop_iff (k : Nat) (s : State) {o : SpecOutcome} (ho : ∀ t, o ≠ .next t) :
    runWords k s = o ↔ ∃ j s', j < k ∧ CompletesRun j s s' ∧ stepOutcome s' = o := by
  induction k generalizing s with
  | zero =>
    simp only [runWords, Nat.not_lt_zero, false_and, exists_false, iff_false]
    exact (ho s).symm
  | succ k ih =>
    by_cases h : ∃ t, Completes s t
    · obtain ⟨t, ht⟩ := h
      rw [runWords_succ_of_completes k ht, ih]
      constructor
      · rintro ⟨j, s', hj, run, stop⟩
        exact ⟨j + 1, s', by omega, .step ht run, stop⟩
      · rintro ⟨j, s', hj, run, stop⟩
        cases run with
        | done => exact absurd (stop.symm.trans ((stepOutcome_eq_next_iff s t).2 ht)) (ho t)
        | step first rest => exact ⟨_, s', Nat.lt_of_succ_lt_succ hj, completes_unique ht first ▸ rest, stop⟩
    · have stopped : ∀ t, ¬Completes s t := not_exists.1 h
      rw [runWords_succ_of_stop k stopped]
      constructor
      · exact fun stop => ⟨0, s, by omega, .done s, stop⟩
      · rintro ⟨j, s', -, run, stop⟩
        cases run with
        | done => exact stop
        | step first rest => exact absurd first (stopped _)

theorem restKept_refl (s : State) : RestKept s s :=
  ⟨rfl, fun _ => bankKept_of_bank_eq rfl, rfl, rfl, rfl, rfl, fun _ => rfl, rfl, rfl, rfl⟩

theorem restKept_trans {s s' s'' : State} (h : RestKept s s') (h' : RestKept s' s'') :
    RestKept s s'' := by
  obtain ⟨pstate, bank, sys, fp, dbg, hidden, read, mem, text, platform⟩ := h
  obtain ⟨pstate', bank', sys', fp', dbg', hidden', read', mem', text', platform'⟩ := h'
  exact ⟨pstate'.trans pstate, fun x => bankKept_trans (bank x) (bank' x), sys'.trans sys,
    fp'.trans fp, dbg'.trans dbg, hidden'.trans hidden, fun a => (read' a).trans (read a),
    mem'.trans mem, text'.trans text, platform'.trans platform⟩

/-- The word fetched at an address is the same as long as memory and program text are. -/
theorem fetchedWord_setPc {s s' : State} (h : RestKept s s') (a : Word) :
    fetchedWord (s'.setPc a) = fetchedWord (s.setPc a) := by
  obtain ⟨-, -, -, -, -, -, -, mem, text, -⟩ := h
  have byte : fetchByte (s'.setPc a) = fetchByte (s.setPc a) := by
    funext b
    rw [fetchByte, fetchByte, State.setPc_text, State.setPc_text, State.setPc_mem, State.setPc_mem,
      mem, text]
  simp only [fetchedWord, byte, State.setPc_pc]

theorem add_four_mul_succ (a : Word) (k : Nat) :
    a + 4#64 + BitVec.ofNat 64 (4 * k) = a + BitVec.ofNat 64 (4 * (k + 1)) := by
  rw [BitVec.add_assoc, Nat.mul_succ, Nat.add_comm (4 * k) 4, BitVec.ofNat_add]

theorem setPc_pc_self : s.setPc (s.pc + BitVec.ofNat 64 (4 * 0)) = s := by
  rw [Nat.mul_zero, BitVec.add_zero]
  rfl

/-- Induction on the run: the first word is the form that completed, the others those of the rest. -/
theorem completesRun_spec {k : Nat} {s s' : State} (run : CompletesRun k s s') :
    s'.pc = s.pc + BitVec.ofNat 64 (4 * k) ∧ RestKept s s' ∧
      ∀ j, j < k →
        ∃ i : Instr, decode (fetchedWord (s.setPc (s.pc + BitVec.ofNat 64 (4 * j)))) = .instr i := by
  induction run with
  | done s => exact ⟨(BitVec.add_zero _).symm, restKept_refl s, fun j hj => absurd hj (by omega)⟩
  | @step k s t s' first rest ih =>
    obtain ⟨pc, kept, words⟩ := ih
    refine ⟨?_, restKept_trans (completes_restKept first) kept, fun j hj => ?_⟩
    · rw [pc, completes_pc first, add_four_mul_succ]
    · cases j with
      | zero =>
        obtain ⟨i, word, -⟩ := completes_commits first
        exact ⟨i, by rwa [setPc_pc_self]⟩
      | succ j =>
        obtain ⟨i, word⟩ := words j (by omega)
        rw [completes_pc first, add_four_mul_succ, fetchedWord_setPc (completes_restKept first)] at word
        exact ⟨i, word⟩

end Sys2Proof.Machine

namespace Sys2Proof.Proofs

open Sys2Proof.Machine Sys2Proof.Safety

/-- Settles O6. -/
theorem stepRunsTheDecodedInstruction : Obligations.StepRunsTheDecodedInstruction :=
  fun s _ _ => step_execute s

/-- Settles O7: the two checks come first, and a completed form adds 4 to the pc. -/
theorem fetchChecksThePc : Obligations.FetchChecksThePc :=
  ⟨fun s admitted unaligned => step_of_raise s (fetchDecode_misaligned s admitted unaligned),
    fun s admitted aligned code =>
      step_of_raise s (fetchDecode_notExecutable s admitted aligned code),
    fun i s ready aligned =>
      ⟨_, exec_ready s i ready, ld4Commit_pc .., add_toNat_mod_four aligned rfl⟩⟩

/-- Settles O8. -/
theorem illegalStateIsTakenBeforeDecoding : Obligations.IllegalStateIsTakenBeforeDecoding :=
  fun s admitted aligned code unshared il =>
    step_of_raise s (fetchDecode_illegalState s admitted aligned code unshared il)

/-- Settles O9: the conditions of `notAdmitted` in their order, then shared code. -/
theorem unadmittedStepsAreRefused : Obligations.UnadmittedStepsAreRefused := by
  refine fun s => ⟨fun width => step_notAdmitted s ?aarch32,
    fun width halted => step_notAdmitted s ?debugState,
    fun width halted ss => step_notAdmitted s ?softwareStep,
    fun width halted ss events => step_notAdmitted s ?debugEvents,
    fun width halted ss events pending => step_notAdmitted s ?pendingInterrupt,
    fun admitted aligned code shared =>
      step_of_refuse s (fetchDecode_shared s admitted aligned code shared)⟩
  case pendingInterrupt => rcases pending with h | h | h <;> simp [notAdmitted, *]
  all_goals simp [notAdmitted, *]

/-- Settles O46. -/
theorem stepTakesTheOutcome : Obligations.StepTakesTheOutcome := by
  refine fun s => ⟨stepOutcome_eq_next_iff s, fun e s₁ h => ⟨?taken, not_completes_of_fault s h⟩,
    fun r => ?refused⟩
  case taken => rw [step_eq_taken, h, SpecOutcome.taken]
  case refused => rw [step_eq_taken, SpecOutcome.taken_eq_refused_iff]

/-- Settles O47. -/
theorem faultLeavesTheState : Obligations.FaultLeavesTheState :=
  fun s _ _ h => ⟨(congrArg State.pc (fault_state s h)).trans (State.setVregs_pc ..), fault_notDataAbort s h,
    fun _ => fault_dataAbort s h⟩

/-- Settles O48, by induction on the number of words. -/
theorem runEndsAsTheRuleSays : Obligations.RunEndsAsTheRuleSays := by
  intro k s
  refine ⟨runWords_eq_next_iff k s, fun e t => ?fault, fun r => ?refused⟩
  case fault => exact runWords_eq_stop_iff k s (by simp)
  case refused => exact runWords_eq_stop_iff k s (by simp)

/-- Settles O34, by induction on the run. -/
theorem completedRunAdvancesThePc : Obligations.CompletedRunAdvancesThePc :=
  fun _ _ _ => completesRun_spec

/-- Settles O31. -/
theorem noStepChangesTheConfiguration : Obligations.NoStepChangesTheConfiguration :=
  fun s _ h => ⟨step_configurationKept s h, step_keeps_vbar_sctlr s h⟩

/-- Settles O32: a completed form keeps PSTATE, and no exception is taken to a lower level. -/
theorem noStepLowersTheLevel : Obligations.NoStepLowersTheLevel := by
  intro s s' h
  rcases step_cases s h with ⟨i, -, rfl⟩ | ⟨e, v, rfl, trap⟩
  · rw [ld4Commit_pstate]
  · exact takenTarget_rank (s.setVregs v) fun x he => (trap x he).1

/-- Settles O33: the outcome of the step is `Next`, or a fault whose exception is entered. -/
theorem everyStepCompletesOrEntersAHandler : Obligations.EveryStepCompletesOrEntersAHandler := by
  intro s s' h
  rw [step_eq_taken, SpecOutcome.taken_eq_next_iff] at h
  rcases h with next | ⟨e, s₁, fault, rfl⟩
  · have completes := (stepOutcome_eq_next_iff s s').1 next
    exact .inl ⟨completes, completes_pc completes, completes_restKept completes⟩
  · refine .inr ⟨not_completes_of_fault s fault, exceptionTarget e s₁, ?_⟩
    rw [fault_state s fault]
    refine ⟨takeSync_elr .., takeSync_spsr .., rfl, rfl, ?vector, takeSync_readX _ e,
      fun l => (takeSync_spAt _ e l).trans (State.spAt_setVregs ..), fun y hy => ?others⟩
    case vector =>
      rw [takeSync_pc, State.bank_setVregs]
      rcases vectorOffset_synchronous _ s.pstate with h | h | h
      · exact .inl ((congrArg _ h).trans (BitVec.add_zero _))
      · exact .inr (.inl (congrArg _ h))
      · exact .inr (.inr (congrArg _ h))
    case others =>
      exact bankKept_of_bank_eq (by rw [takeSync_bank, if_neg hy, State.bank_setVregs])

/-- Settles O30: each part of the invariant is kept by a completed form and by an entry. -/
theorem everyStepKeepsTheInvariant : Obligations.EveryStepKeepsTheInvariant := by
  rintro s s' ⟨memory, text, legal, aligned, vbar1, vbar2, vbar3⟩ h
  obtain ⟨-, -, -, -, -, sameMem, sameText, -⟩ := step_configurationKept s h
  have vbar : ∀ x, (s.bank x).vbar.toNat % 4 = 0
    | .el1 => vbar1
    | .el2 => vbar2
    | .el3 => vbar3
  have vbar' : ∀ x, (s'.bank x).vbar.toNat % 4 = 0 := fun x => by
    rw [(step_keeps_vbar_sctlr s h x).1]
    exact vbar x
  exact ⟨sameMem ▸ memory, sameText ▸ text, step_legalMode s legal h,
    step_pc_aligned s aligned vbar h, vbar' .el1, vbar' .el2, vbar' .el3⟩

end Sys2Proof.Proofs
end
